-- ==== Sys2Proof/Word.lean ====
section
/-! DEFINITION. The two data widths of the machine (00_scope.md R8): a Word of 16 bits and a byte of 8 bits. -/

namespace Sys2Proof

/-- A Word: "a 16-bit unsigned value" (00_scope.md R5, R8). -/
abbrev Word := BitVec 16

/-- A byte: a console character, an image byte, or one half of a stored word (20_memory.md R49, R60). -/
abbrev Byte := BitVec 8

end Sys2Proof
end

