-- ==== Sys2Proof/Syntax.lean ====
section
/-! DEFINITION. The instructions as syntax: one constructor per row of spec/opcode_table.json. Fields hold the bits of the
instruction word as 30_encoding.md R73 names them; immediates and offsets are kept unextended (R74 extends them). -/

namespace Sys2Proof

/-- The eight general registers (10_state.md R22). -/
inductive Reg where
  | r0 | r1 | r2 | r3 | r4 | r5 | r6 | r7
  deriving DecidableEq, Repr

/-- One constructor per row of the opcode table. -/
inductive Instr where
  /-- ADD, register form (40_operate.md R100). -/
  | addReg (dr sr1 sr2 : Reg)
  /-- ADD, immediate form (R101). -/
  | addImm (dr sr1 : Reg) (imm5 : BitVec 5)
  /-- AND, register form (R102). -/
  | andReg (dr sr1 sr2 : Reg)
  /-- AND, immediate form (R103). -/
  | andImm (dr sr1 : Reg) (imm5 : BitVec 5)
  /-- NOT (R104). -/
  | not (dr sr : Reg)
  /-- BR (41_control.md R120). -/
  | br (nzp : BitVec 3) (off9 : BitVec 9)
  /-- JMP (R122). -/
  | jmp (baseR : Reg)
  /-- RET: the words of JMP with BaseR = 7, a row of its own in the table (R122, 30_encoding.md R83). -/
  | ret
  /-- JSR (R123). -/
  | jsr (off11 : BitVec 11)
  /-- JSRR (R124). -/
  | jsrr (baseR : Reg)
  /-- LD (42_load_store.md R140). -/
  | ld (dr : Reg) (off9 : BitVec 9)
  /-- LDI (R141). -/
  | ldi (dr : Reg) (off9 : BitVec 9)
  /-- LDR (R142). -/
  | ldr (dr baseR : Reg) (off6 : BitVec 6)
  /-- LEA (R143). -/
  | lea (dr : Reg) (off9 : BitVec 9)
  /-- ST (R144). -/
  | st (sr : Reg) (off9 : BitVec 9)
  /-- STI (R145). -/
  | sti (sr : Reg) (off9 : BitVec 9)
  /-- STR (R146). -/
  | str (sr baseR : Reg) (off6 : BitVec 6)
  /-- TRAP x20, GETC (43_trap.md R171). -/
  | getc
  /-- TRAP x21, OUT (R172). -/
  | out
  /-- TRAP x22, PUTS (R173). -/
  | puts
  /-- TRAP x23, IN (R174). -/
  | inKey
  /-- TRAP x24, PUTSP (R175). -/
  | putsp
  /-- TRAP x25, HALT (R176). -/
  | halt
  /-- TRAP, the generic row (R170, R177). -/
  | trap (vec : BitVec 8)
  /-- RTI, unimplemented and fatal (44_unimplemented.md R200). -/
  | rti
  /-- RES, reserved, unimplemented and fatal (R201). -/
  | res
  deriving DecidableEq, Repr

end Sys2Proof
end

