-- ==== Sys2Proof/WellFormed.lean ====
section
/-! DEFINITION. Which terms of Instr are THE reading of a word. Every field value is admissible (30_encoding.md R78: decoding is
total); the two checks separate a general row of the table from its more specific rows ("a decoder must prefer them"). -/

namespace Sys2Proof

/-- The words of `JMP R7` are the row RET, and the words of TRAP x20..x25 are the six service rows (43_trap.md R170), so
`jmp r7` and `trap 0x20 .. trap 0x25` are no word's reading (log entry 23). -/
def Instr.wellFormed : Instr → Bool
  | .jmp baseR => baseR != .r7
  | .trap vec => vec.ult 0x20#8 || BitVec.ult 0x25#8 vec
  | .addReg _ _ _ | .addImm _ _ _ | .andReg _ _ _ | .andImm _ _ _ | .not _ _ | .br _ _ | .ret | .jsr _ | .jsrr _
  | .ld _ _ | .ldi _ _ | .ldr _ _ _ | .lea _ _ | .st _ _ | .sti _ _ | .str _ _ _ | .getc | .out | .puts | .inKey
  | .putsp | .halt | .rti | .res => true

end Sys2Proof
end

