-- ==== Sys2Proof/Decode.lean ====
section
/-! DEFINITION. Decoding and encoding (30_encoding.md). Decoding a word is total (R78); decoding bytes rejects, by name, a list
that holds no whole word. The encoder writes the canonical word of R82 and R83. -/

namespace Sys2Proof

/-! ## Opcodes and registers -/

/-- The sixteen opcodes (30_encoding.md R72). -/
inductive Opcode where
  | br | add | ld | st | jsr | and | ldr | str | rti | not | ldi | sti | jmp | res | lea | trap
  deriving DecidableEq, Repr

/-- The opcode values of R72 (RTI from the source; the others by decision D2; log entry 5: PRESUMED, unsafe). -/
def Opcode.bits : Opcode → BitVec 4
  | .br => 0b0000#4
  | .add => 0b0001#4
  | .ld => 0b0010#4
  | .st => 0b0011#4
  | .jsr => 0b0100#4
  | .and => 0b0101#4
  | .ldr => 0b0110#4
  | .str => 0b0111#4
  | .rti => 0b1000#4
  | .not => 0b1001#4
  | .ldi => 0b1010#4
  | .sti => 0b1011#4
  | .jmp => 0b1100#4
  | .res => 0b1101#4
  | .lea => 0b1110#4
  | .trap => 0b1111#4

/-- The opcode a 4-bit field selects: every value is one of the sixteen (R71). -/
def Opcode.ofBits (b : BitVec 4) : Opcode :=
  match b[3], b[2], b[1], b[0] with
  | false, false, false, false => .br
  | false, false, false, true => .add
  | false, false, true, false => .ld
  | false, false, true, true => .st
  | false, true, false, false => .jsr
  | false, true, false, true => .and
  | false, true, true, false => .ldr
  | false, true, true, true => .str
  | true, false, false, false => .rti
  | true, false, false, true => .not
  | true, false, true, false => .ldi
  | true, false, true, true => .sti
  | true, true, false, false => .jmp
  | true, true, false, true => .res
  | true, true, true, false => .lea
  | true, true, true, true => .trap

/-- The 3-bit field of a register (30_encoding.md R76). -/
def Reg.bits : Reg → BitVec 3
  | .r0 => 0b000#3
  | .r1 => 0b001#3
  | .r2 => 0b010#3
  | .r3 => 0b011#3
  | .r4 => 0b100#3
  | .r5 => 0b101#3
  | .r6 => 0b110#3
  | .r7 => 0b111#3

/-- The register a 3-bit field selects (R76). -/
def Reg.ofBits (b : BitVec 3) : Reg :=
  match b[2], b[1], b[0] with
  | false, false, false => .r0
  | false, false, true => .r1
  | false, true, false => .r2
  | false, true, true => .r3
  | true, false, false => .r4
  | true, false, true => .r5
  | true, true, false => .r6
  | true, true, true => .r7

/-! ## Words and bytes -/

/-- Bits 15..8 of a word. -/
def hiByte (w : Word) : Byte := w.extractLsb 15 8

/-- Bits 7..0 of a word. -/
def loByte (w : Word) : Byte := w.extractLsb 7 0

/-- The word of a high and a low byte: big-endian order puts the high byte first (20_memory.md R49). -/
def wordOfBytes (hi lo : Byte) : Word := hi ++ lo

/-! ## Decoding -/

/-- The trap row a vector selects (43_trap.md R170): the six service rows are more specific than the generic one. -/
def decodeTrap (vec : BitVec 8) : Instr :=
  if vec = 0x20#8 then .getc
  else if vec = 0x21#8 then .out
  else if vec = 0x22#8 then .puts
  else if vec = 0x23#8 then .inKey
  else if vec = 0x24#8 then .putsp
  else if vec = 0x25#8 then .halt
  else .trap vec

/-- The reading of JMP's base register: RET when it is R7 (30_encoding.md R83). -/
def decodeJmp (baseR : Reg) : Instr :=
  if baseR = .r7 then .ret else .jmp baseR

/-- `decode` of 30_encoding.md R78, total on all words. Bits marked x in R73 are not looked at (R79; log entry 7). -/
def decodeWord (w : Word) : Instr :=
  match Opcode.ofBits (w.extractLsb 15 12) with
  | .br => .br (w.extractLsb 11 9) (w.extractLsb 8 0)
  | .add =>
    if w[5] then .addImm (Reg.ofBits (w.extractLsb 11 9)) (Reg.ofBits (w.extractLsb 8 6)) (w.extractLsb 4 0)
    else .addReg (Reg.ofBits (w.extractLsb 11 9)) (Reg.ofBits (w.extractLsb 8 6)) (Reg.ofBits (w.extractLsb 2 0))
  | .ld => .ld (Reg.ofBits (w.extractLsb 11 9)) (w.extractLsb 8 0)
  | .st => .st (Reg.ofBits (w.extractLsb 11 9)) (w.extractLsb 8 0)
  | .jsr => if w[11] then .jsr (w.extractLsb 10 0) else .jsrr (Reg.ofBits (w.extractLsb 8 6))
  | .and =>
    if w[5] then .andImm (Reg.ofBits (w.extractLsb 11 9)) (Reg.ofBits (w.extractLsb 8 6)) (w.extractLsb 4 0)
    else .andReg (Reg.ofBits (w.extractLsb 11 9)) (Reg.ofBits (w.extractLsb 8 6)) (Reg.ofBits (w.extractLsb 2 0))
  | .ldr => .ldr (Reg.ofBits (w.extractLsb 11 9)) (Reg.ofBits (w.extractLsb 8 6)) (w.extractLsb 5 0)
  | .str => .str (Reg.ofBits (w.extractLsb 11 9)) (Reg.ofBits (w.extractLsb 8 6)) (w.extractLsb 5 0)
  | .rti => .rti
  | .not => .not (Reg.ofBits (w.extractLsb 11 9)) (Reg.ofBits (w.extractLsb 8 6))
  | .ldi => .ldi (Reg.ofBits (w.extractLsb 11 9)) (w.extractLsb 8 0)
  | .sti => .sti (Reg.ofBits (w.extractLsb 11 9)) (w.extractLsb 8 0)
  | .jmp => decodeJmp (Reg.ofBits (w.extractLsb 8 6))
  | .res => .res
  | .lea => .lea (Reg.ofBits (w.extractLsb 11 9)) (w.extractLsb 8 0)
  | .trap => decodeTrap (w.extractLsb 7 0)

/-- Why a list of bytes holds no instruction. -/
inductive DecodeReject where
  /-- Fewer than two bytes: an instruction is exactly one 16-bit word (30_encoding.md R70). -/
  | truncated
  deriving DecidableEq, Repr

/-- The reading of a list of bytes: an instruction and the bytes after it, or a named rejection. -/
inductive Decoded where
  | instr (i : Instr) (rest : List Byte)
  | rejected (reason : DecodeReject)
  deriving DecidableEq, Repr

/-- Decoding bytes laid out as the image lays out words, high byte first (20_memory.md R49). -/
def decodeBytes : List Byte → Decoded
  | hi :: lo :: rest => .instr (decodeWord (wordOfBytes hi lo)) rest
  | _ => .rejected .truncated

/-- The instruction whose bits are `w`, numbered as the opcode table numbers them. Every instruction has one word (R70, R81), so
a row of more than 16 bits has none. -/
def decodeTableWord (nbits w : Nat) : Option Instr :=
  if nbits ≤ 16 then
    match decodeBytes [hiByte (BitVec.ofNat 16 (w % 2 ^ nbits)), loByte (BitVec.ofNat 16 (w % 2 ^ nbits))] with
    | .instr i _ => some i
    | .rejected _ => none
  else none

/-! ## Encoding: the eleven formats of 30_encoding.md R73, don't-care bits at their canonical value (R82, R83) -/

/-- Format OPR: opcode, DR, SR1, 0, 00, SR2. -/
def formatOpr (op : Opcode) (dr sr1 sr2 : Reg) : Word := op.bits ++ dr.bits ++ sr1.bits ++ 0b0#1 ++ 0b00#2 ++ sr2.bits

/-- Format OPI: opcode, DR, SR1, 1, imm5. -/
def formatOpi (op : Opcode) (dr sr1 : Reg) (imm5 : BitVec 5) : Word := op.bits ++ dr.bits ++ sr1.bits ++ 0b1#1 ++ imm5

/-- Format NOTF: opcode, DR, SR, 111111 (the assembler's value of the ignored bits, R82). -/
def formatNotf (op : Opcode) (dr sr : Reg) : Word := op.bits ++ dr.bits ++ sr.bits ++ 0b111111#6

/-- Format BRF: opcode, n, z, p, PCoffset9. -/
def formatBrf (op : Opcode) (nzp : BitVec 3) (off9 : BitVec 9) : Word := op.bits ++ nzp ++ off9

/-- Format PCR: opcode, DR or SR, PCoffset9. -/
def formatPcr (op : Opcode) (r : Reg) (off9 : BitVec 9) : Word := op.bits ++ r.bits ++ off9

/-- Format BASE: opcode, DR or SR, BaseR, offset6. -/
def formatBase (op : Opcode) (r baseR : Reg) (off6 : BitVec 6) : Word := op.bits ++ r.bits ++ baseR.bits ++ off6

/-- Format JMPF: opcode, 000, BaseR, 000000. -/
def formatJmpf (op : Opcode) (baseR : Reg) : Word := op.bits ++ 0b000#3 ++ baseR.bits ++ 0b000000#6

/-- Format JSRF: opcode, 1, PCoffset11. -/
def formatJsrf (op : Opcode) (off11 : BitVec 11) : Word := op.bits ++ 0b1#1 ++ off11

/-- Format JSRRF: opcode, 0, 00, BaseR, 000000. -/
def formatJsrrf (op : Opcode) (baseR : Reg) : Word := op.bits ++ 0b0#1 ++ 0b00#2 ++ baseR.bits ++ 0b000000#6

/-- Format TRAPF: opcode, 0000, trapvect8. -/
def formatTrapf (op : Opcode) (vec : BitVec 8) : Word := op.bits ++ 0b0000#4 ++ vec

/-- Format NONE: opcode, zeros. -/
def formatNone (op : Opcode) : Word := op.bits ++ 0b000000000000#12

/-- The canonical word of an instruction (R72, R73, R82, R83). -/
def encode : Instr → Word
  | .addReg dr sr1 sr2 => formatOpr .add dr sr1 sr2
  | .addImm dr sr1 imm5 => formatOpi .add dr sr1 imm5
  | .andReg dr sr1 sr2 => formatOpr .and dr sr1 sr2
  | .andImm dr sr1 imm5 => formatOpi .and dr sr1 imm5
  | .not dr sr => formatNotf .not dr sr
  | .br nzp off9 => formatBrf .br nzp off9
  | .jmp baseR => formatJmpf .jmp baseR
  | .ret => formatJmpf .jmp .r7
  | .jsr off11 => formatJsrf .jsr off11
  | .jsrr baseR => formatJsrrf .jsr baseR
  | .ld dr off9 => formatPcr .ld dr off9
  | .ldi dr off9 => formatPcr .ldi dr off9
  | .ldr dr baseR off6 => formatBase .ldr dr baseR off6
  | .lea dr off9 => formatPcr .lea dr off9
  | .st sr off9 => formatPcr .st sr off9
  | .sti sr off9 => formatPcr .sti sr off9
  | .str sr baseR off6 => formatBase .str sr baseR off6
  | .getc => formatTrapf .trap 0x20#8
  | .out => formatTrapf .trap 0x21#8
  | .puts => formatTrapf .trap 0x22#8
  | .inKey => formatTrapf .trap 0x23#8
  | .putsp => formatTrapf .trap 0x24#8
  | .halt => formatTrapf .trap 0x25#8
  | .trap vec => formatTrapf .trap vec
  | .rti => formatNone .rti
  | .res => formatNone .res

/-- The bytes of an instruction, high byte first. -/
def encodeBytes (i : Instr) : List Byte := [hiByte (encode i), loByte (encode i)]

end Sys2Proof
end

