-- ==== Sys2Proof/Config.lean ====
section
/-! DEFINITION. The parameters of the machine: the fixed values of 00_scope.md R5, the named parameters of R6, and the free
values a host draw takes when the state's keyboard list settles nothing. -/

namespace Sys2Proof

/-- PC_START, the value of `pc` at reset (00_scope.md R5, 70_reset_and_hazards.md R241). -/
def Config.pcStart : Word := 0x3000#16

/-- KBSR_ADDR, the keyboard status cell (00_scope.md R5, 20_memory.md R53). -/
def Config.kbsr : Word := 0xFE00#16

/-- KBDR_ADDR, the keyboard data cell (00_scope.md R5, 20_memory.md R53). -/
def Config.kbdr : Word := 0xFE02#16

/-- What a byte of memory that nothing has written reads as (10_state.md R34, decision D6; log entry 4: DESIGN CHOICE, unsafe). -/
def Config.unlistedByte : Byte := 0x00#8

/-- The two readings of PUTSP's second character (43_trap.md R179). -/
inductive PutspHighByte where
  | logical | byte
  deriving DecidableEq, Repr

/-- The default of PUTSP_HIGH_BYTE the spec states, the reference behaviour (00_scope.md R6, decision D13). The parameter itself is
`Machine.State.putspHighByte` (log entry 16). -/
def Config.putspHighByte : PutspHighByte := .logical

/-- IN_PROMPT, the text IN writes: OPEN in the spec (00_scope.md R6, decision D14; log entry 17). -/
opaque Config.inPrompt : List Byte

/-- HALT_MESSAGE, the text HALT writes: OPEN in the spec (00_scope.md R6, decision D15; log entry 18). -/
opaque Config.haltMessage : List Byte

/-- The outcome of the n-th free draw when it is a ConsolePoll: `some c` a keystroke, `none` no key within the bounded wait
(20_memory.md R60, decision D9; log entry 9). A free value. -/
opaque Config.pollDraw : Nat → Option Byte

/-- The outcome of the n-th free draw when it is a ConsoleGetChar: `some c` the key the host supplies, `none` if it never
supplies one (20_memory.md R60, decision D18; log entry 11). A free value. -/
opaque Config.keyDraw : Nat → Option Byte

end Sys2Proof
end

