-- ==== Sys2Proof/Machine/State.lean ====
section
/-! DEFINITION. The state of the machine as plain data (10_state.md R20, R33), its reset value (R34), and the reasons a step can stop. -/

namespace Sys2Proof.Machine

/-- The general registers R0..R7 (10_state.md R22). -/
structure RegFile where
  r0 : Word
  r1 : Word
  r2 : Word
  r3 : Word
  r4 : Word
  r5 : Word
  r6 : Word
  r7 : Word
  deriving DecidableEq, Repr

/-- COND: "3-valued condition: positive/zero/negative, mutually exclusive" (10_state.md R25). -/
inductive Cond where
  | n | z | p
  deriving DecidableEq, Repr

/-- The two opcodes without a handler (44_unimplemented.md R200, R201). -/
inductive FatalOp where
  | rti | res
  deriving DecidableEq, Repr

/-- The reasons of a fatal abort (60_exceptions.md R211). -/
inductive AbortReason where
  | fatalOpcode (op : FatalOp)
  | stringPastEnd
  deriving DecidableEq, Repr

/-- The executor state (10_state.md R31). -/
inductive Run where
  | running
  | halted
  | aborted (reason : AbortReason)
  deriving DecidableEq, Repr

/-- The memory: bytes by key, word `a` at keys `2a` (bits 15..8) and `2a + 1` (bits 7..0) (20_memory.md R40; log entry 1), in the
canonical form `Memory.wf`. -/
abbrev Memory := List Host.Cell

/-- The state: the architectural state of 10_state.md R20, the output trace of R33, the host's side of the keyboard, and the one
parameter of 00_scope.md R6 that selects between two builds. -/
structure State where
  /-- R0..R7. -/
  regs : RegFile
  /-- The program counter (R24). -/
  pc : Word
  /-- The condition state (R25). -/
  cond : Cond
  /-- M[0..65535], KBSR and KBDR among them (R20, R30). -/
  mem : Memory
  /-- The executor state (R31). -/
  run : Run
  /-- The console output trace (R33). -/
  out : List Byte
  /-- The host draws already settled, first to be taken first: `some c` a keystroke, `none` a wait without one (20_memory.md R60,
  R61; log entries 9 and 10). -/
  keyboard : List (Option Byte)
  /-- How many free draws have been taken, the counter the free values of Config are applied to (log entries 9 and 11). -/
  draws : Nat
  /-- The parameter PUTSP_HIGH_BYTE (00_scope.md R6, 43_trap.md R179): which build the machine is. No step writes it (log entry 16). -/
  putspHighByte : PutspHighByte
  deriving DecidableEq, Repr

/-- Why a step stops with a fault. -/
inductive Fault where
  /-- Raised by GETC, IN and TRAP with their vectors when the host never supplies a key: the stuck state of
  93_implementation_defined.md U14 and decision D18, "A model gives the waiting step no successor until the host supplies a
  key". Safe: the machine waits, and no later state is claimed (log entry 11). -/
  | waitingForKey
  deriving DecidableEq, Repr

/-- Why an instruction is refused. -/
inductive Refusal where
  /-- Raised by no arm of `exec` in this model: every instruction has its meaning. Safe. -/
  | notModelled (mnemonic : String)
  deriving DecidableEq, Repr

/-- All eight registers zero (10_state.md R34, decision D4; log entry 2: DESIGN CHOICE, unsafe). -/
def RegFile.reset : RegFile :=
  { r0 := 0#16, r1 := 0#16, r2 := 0#16, r3 := 0#16, r4 := 0#16, r5 := 0#16, r6 := 0#16, r7 := 0#16 }

/-- The machine right after reset, before the Loader runs (10_state.md R34, 70_reset_and_hazards.md R240). COND is decision D5 (log
entry 3), memory decision D6 (log entry 4). keyboard and draws are the model's own (log entry 12), and PUTSP_HIGH_BYTE has its stated
default (log entry 16). -/
def State.reset : State :=
  { regs := RegFile.reset
    pc := Config.pcStart
    cond := .z
    mem := []
    run := .running
    out := []
    keyboard := []
    draws := 0
    putspHighByte := Config.putspHighByte }

end Sys2Proof.Machine
end

