-- ==== Sys2Proof/Machine/Ops.lean ====
section
/-! DEFINITION. The named operations over registers, memory, the console and the executor state. -/

namespace Sys2Proof.Machine

/-! ## General registers -/

/-- `x[i]` (00_scope.md R10, 10_state.md R22). -/
def RegFile.get (f : RegFile) : Reg → Word
  | .r0 => f.r0
  | .r1 => f.r1
  | .r2 => f.r2
  | .r3 => f.r3
  | .r4 => f.r4
  | .r5 => f.r5
  | .r6 => f.r6
  | .r7 => f.r7

/-- `x[i] <- v` (00_scope.md R10, 10_state.md R22). -/
def RegFile.set (f : RegFile) (r : Reg) (v : Word) : RegFile :=
  match r with
  | .r0 => { f with r0 := v }
  | .r1 => { f with r1 := v }
  | .r2 => { f with r2 := v }
  | .r3 => { f with r3 := v }
  | .r4 => { f with r4 := v }
  | .r5 => { f with r5 := v }
  | .r6 => { f with r6 := v }
  | .r7 => { f with r7 := v }

/-- Reading a general register. -/
def State.reg (s : State) (r : Reg) : Word := s.regs.get r

/-- Writing a general register. -/
def State.setReg (s : State) (r : Reg) (v : Word) : State := { s with regs := s.regs.set r v }

/-- `pc <- t` (00_scope.md R10). -/
def State.setPc (s : State) (t : Word) : State := { s with pc := t }

/-! ## Memory as bytes by key -/

/-- How many byte keys the 65,536 words take (20_memory.md R40). -/
def memBytes : Nat := 131072

/-- The byte at a key. -/
def Memory.readByte : Memory → Nat → Byte
  | [], _ => Config.unlistedByte
  | (k, b) :: m, a => if k = a then b else readByte m a

/-- The list without its entries at a key. -/
def Memory.erase (m : Memory) (a : Nat) : Memory := m.filter (fun c => c.1 != a)

/-- An entry put before the first larger key. -/
def Memory.insert : Memory → Nat → Byte → Memory
  | [], a, v => [(a, v)]
  | (k, b) :: m, a, v => if a < k then (a, v) :: (k, b) :: m else (k, b) :: insert m a v

/-- Writing the byte at a key; the value an unlisted key reads as removes the entry. -/
def Memory.writeByte (m : Memory) (a : Nat) (v : Byte) : Memory :=
  if v = Config.unlistedByte then m.erase a else (m.erase a).insert a v

/-- The keys from `lo` on strictly rise and stay below `memBytes`, and no entry holds the unlisted value. -/
def Memory.wfFrom (lo : Nat) : Memory → Bool
  | [] => true
  | (k, b) :: m => decide (lo ≤ k) && decide (k < memBytes) && (b != Config.unlistedByte) && wfFrom (k + 1) m

/-- The canonical form of a memory. -/
def Memory.wf (m : Memory) : Bool := Memory.wfFrom 0 m

/-- The key of a word's bits 15..8; its bits 7..0 are at the next key (log entry 1). -/
def wordKey (a : Word) : Nat := 2 * a.toNat

/-- M[a]. -/
def Memory.readWord (m : Memory) (a : Word) : Word :=
  wordOfBytes (m.readByte (wordKey a)) (m.readByte (wordKey a + 1))

/-- M[a] <- v. -/
def Memory.writeWord (m : Memory) (a v : Word) : Memory :=
  (m.writeByte (wordKey a) (hiByte v)).writeByte (wordKey a + 1) (loByte v)

/-! ## Console primitives -/

/-- `ConsolePoll()` (20_memory.md R60, R61): the next settled draw, or a free one (log entry 9). -/
def State.consolePoll (s : State) : Option Byte × State :=
  match s.keyboard with
  | k :: rest => (k, { s with keyboard := rest })
  | [] => (Config.pollDraw s.draws, { s with draws := s.draws + 1 })

/-- The first keystroke of a list of draws and the draws after it; waits without a key are passed over (log entry 10). -/
def firstKey : List (Option Byte) → Option (Byte × List (Option Byte))
  | [] => none
  | none :: rest => firstKey rest
  | some c :: rest => some (c, rest)

/-- `ConsoleGetChar()` (20_memory.md R60, R61): the next settled keystroke, else a free one; `none` when the host never supplies
a key (decision D18; log entry 11). -/
def State.consoleGetChar (s : State) : Option (Byte × State) :=
  match firstKey s.keyboard with
  | some (c, rest) => some (c, { s with keyboard := rest })
  | none =>
    match Config.keyDraw s.draws with
    | some c => some (c, { s with keyboard := [], draws := s.draws + 1 })
    | none => none

/-- `ConsolePutChar(b)` (20_memory.md R60, R62). -/
def State.consolePutChar (s : State) (b : Byte) : State := { s with out := s.out ++ [b] }

/-- `for b in bs: ConsolePutChar(b)` (43_trap.md R174, R176). -/
def State.consolePutChars (s : State) (bs : List Byte) : State := { s with out := s.out ++ bs }

/-! ## The memory interface -/

/-- `RawRead(a)`: the stored word, without the device hook (20_memory.md R47). -/
def State.rawRead (s : State) (a : Word) : Word := s.mem.readWord a

/-- `M[a] <- v`. -/
def State.poke (s : State) (a v : Word) : State := { s with mem := s.mem.writeWord a v }

/-- `MemWrite(a, 1, v)`: the unconditional store (20_memory.md R46, decision D17; log entry 20). -/
def State.memWrite (s : State) (a v : Word) : State := s.poke a v

/-- `zext_16(c & 0xFF)` of a character (00_scope.md R9, 20_memory.md R43, 43_trap.md R171). -/
def zextByte (c : Byte) : Word := c.zeroExtend 16

/-- What a poll leaves in KBSR and KBDR (20_memory.md R43, decision D8; log entry 8). -/
def State.latchPoll (s : State) (k : Option Byte) : State :=
  match k with
  | some c => (s.poke Config.kbsr 0x8000#16).poke Config.kbdr (zextByte c)
  | none => s.poke Config.kbsr 0x0000#16

/-- The device hook: the poll a read of 0xFE00 makes first (20_memory.md R43, R44). -/
def State.deviceHook (s : State) (a : Word) : State :=
  if a = Config.kbsr then s.consolePoll.2.latchPoll s.consolePoll.1 else s

/-- `MemRead(a, 1)`: the hooked read (20_memory.md R43, R48): the word read and the state after it. -/
def State.memRead (s : State) (a : Word) : Word × State :=
  ((s.deviceHook a).rawRead a, s.deviceHook a)

/-! ## The executor state -/

/-- `raise Fatal(reason)`: the one way an abnormal event is taken (60_exceptions.md R211). There is no return from it (R216). -/
def State.raiseFatal (s : State) (reason : AbortReason) : State := { s with run := .aborted reason }

/-- `halt` (00_scope.md R10, 43_trap.md R176). -/
def State.enterHalted (s : State) : State := { s with run := .halted }

/-- The build of this machine with the given PUTSP_HIGH_BYTE (00_scope.md R6, decision D13; log entry 16). -/
def State.withPutspHighByte (s : State) (mode : PutspHighByte) : State := { s with putspHighByte := mode }

/-- Fetch and increment: `w <- MemRead(pc, 1); pc <- pc + 1` (30_encoding.md R77, decision D10; log entry 13). -/
def State.fetch (s : State) : Word × State :=
  ((s.memRead s.pc).1, (s.memRead s.pc).2.setPc (s.pc + 1#16))

end Sys2Proof.Machine
end

