-- ==== Sys2Proof/Machine/Flags.lean ====
section
/-! DEFINITION. The condition codes: `setcc` (10_state.md R26), the encoding BR tests (R25) and the result write of the seven
instructions that define a result register (R27). -/

namespace Sys2Proof.Machine

/-- The flag of a 16-bit result (10_state.md R26). -/
def condOf (v : Word) : Cond :=
  if v = 0x0000#16 then .z else if v.msb then .n else .p

/-- `setcc(v)` (10_state.md R26). -/
def State.setCc (s : State) (v : Word) : State := { s with cond := condOf v }

/-- `enc(COND)` (10_state.md R25, decision D3; log entry 6: DESIGN CHOICE, unsafe). -/
def Cond.enc : Cond → BitVec 3
  | .n => 0b100#3
  | .z => 0b010#3
  | .p => 0b001#3

/-- The branch decision: `(nzp & enc(COND)) != 0b000` (41_control.md R120). -/
def branchTaken (nzp : BitVec 3) (c : Cond) : Bool := (nzp &&& c.enc) != 0b000#3

/-- `x[DR] <- v; setcc(v)`: the last two statements of ADD, AND, NOT, LD, LDI, LDR and LEA (10_state.md R26, R27). -/
def State.writeResult (s : State) (dr : Reg) (v : Word) : State := (s.setReg dr v).setCc v

end Sys2Proof.Machine
end

