-- ==== Sys2Proof/Machine/Operands.lean ====
section
/-! DEFINITION. Operand assembly: sign extension (00_scope.md R9, 30_encoding.md R74) and the three addressing modes
(30_encoding.md R75, 42_load_store.md R147). -/

namespace Sys2Proof.Machine

/-- `sext_N(v)`: bits N-1..0 are v and the higher bits repeat bit N-1 (00_scope.md R9). -/
def sext {n : Nat} (v : BitVec n) : Word := v.signExtend 16

/-- `pc + sext_N(offset)` with `pc` already incremented (30_encoding.md R75, 20_memory.md R42). -/
def State.pcRelative {n : Nat} (s : State) (off : BitVec n) : Word := s.pc + sext off

/-- `x[BaseR] + sext_6(offset6)` (30_encoding.md R75, 20_memory.md R42). -/
def State.baseOffset (s : State) (baseR : Reg) (off6 : BitVec 6) : Word := s.reg baseR + sext off6

/-- The indirect mode: the pointer `MemRead(pc + sext_9(PCoffset9), 1)` and the state after that read (42_load_store.md R147). -/
def State.indirect (s : State) (off9 : BitVec 9) : Word × State := s.memRead (s.pcRelative off9)

end Sys2Proof.Machine
end

