-- ==== Sys2Proof/Machine/Control.lean ====
section
/-! DEFINITION. The control transfers (41_control.md): BR, JMP, RET, JSR, JSRR. -/

namespace Sys2Proof.Machine

/-- `pc <- x[r]`: the register-indirect target of JMP, RET and JSRR (41_control.md R122, R124). -/
def State.jumpToReg (s : State) (r : Reg) : State := s.setPc (s.reg r)

/-- `x[7] <- pc`: the link of JSR and JSRR (41_control.md R123, R124). -/
def State.link (s : State) : State := s.setReg .r7 s.pc

/-- BR (41_control.md R120). -/
def execBr (nzp : BitVec 3) (off9 : BitVec 9) (s : State) : Host.Outcome State Fault Refusal :=
  .next (if branchTaken nzp s.cond then s.setPc (s.pcRelative off9) else s)

/-- JMP (R122). -/
def execJmp (baseR : Reg) (s : State) : Host.Outcome State Fault Refusal :=
  .next (s.jumpToReg baseR)

/-- RET, `JMP R7` (R122). -/
def execRet (s : State) : Host.Outcome State Fault Refusal :=
  .next (s.jumpToReg .r7)

/-- JSR (R123): the target uses `pc` as it was, not R7. -/
def execJsr (off11 : BitVec 11) (s : State) : Host.Outcome State Fault Refusal :=
  .next (s.link.setPc (s.pcRelative off11))

/-- JSRR (R124): BaseR is read after the R7 write. -/
def execJsrr (baseR : Reg) (s : State) : Host.Outcome State Fault Refusal :=
  .next (s.link.jumpToReg baseR)

end Sys2Proof.Machine
end

