-- ==== Sys2Proof/Machine/LoadStore.lean ====
section
/-! DEFINITION. The loads and stores (42_load_store.md): LD, LDI, LDR, LEA, ST, STI, STR. -/

namespace Sys2Proof.Machine

/-- `v <- MemRead(ea, 1); x[DR] <- v; setcc(v)`: the load every mode ends in (42_load_store.md R140, R141, R142). -/
def State.loadInto (s : State) (dr : Reg) (ea : Word) : State :=
  (s.memRead ea).2.writeResult dr (s.memRead ea).1

/-- LD (42_load_store.md R140). -/
def execLd (dr : Reg) (off9 : BitVec 9) (s : State) : Host.Outcome State Fault Refusal :=
  .next (s.loadInto dr (s.pcRelative off9))

/-- LDI (R141): both reads are hooked. -/
def execLdi (dr : Reg) (off9 : BitVec 9) (s : State) : Host.Outcome State Fault Refusal :=
  .next ((s.indirect off9).2.loadInto dr (s.indirect off9).1)

/-- LDR (R142): the base is read before DR is written. -/
def execLdr (dr baseR : Reg) (off6 : BitVec 6) (s : State) : Host.Outcome State Fault Refusal :=
  .next (s.loadInto dr (s.baseOffset baseR off6))

/-- LEA (R143): no memory access. -/
def execLea (dr : Reg) (off9 : BitVec 9) (s : State) : Host.Outcome State Fault Refusal :=
  .next (s.writeResult dr (s.pcRelative off9))

/-- ST (R144). -/
def execSt (sr : Reg) (off9 : BitVec 9) (s : State) : Host.Outcome State Fault Refusal :=
  .next (s.memWrite (s.pcRelative off9) (s.reg sr))

/-- STI (R145): the pointer read is hooked, and the store follows it. -/
def execSti (sr : Reg) (off9 : BitVec 9) (s : State) : Host.Outcome State Fault Refusal :=
  .next ((s.indirect off9).2.memWrite (s.indirect off9).1 (s.reg sr))

/-- STR (R146). -/
def execStr (sr baseR : Reg) (off6 : BitVec 6) (s : State) : Host.Outcome State Fault Refusal :=
  .next (s.memWrite (s.baseOffset baseR off6) (s.reg sr))

end Sys2Proof.Machine
end

