-- ==== Sys2Proof/Machine/Trap.lean ====
section
/-! DEFINITION. TRAP and the trap dispatcher (43_trap.md): the six console services and the no-op vectors. -/

namespace Sys2Proof.Machine

/-! ## String walks -/

/-- What a string walk writes, and whether it had to read past 0xFFFF (20_memory.md R47, decision D12; log entry 15). -/
structure StringScan where
  bytes : List Byte
  pastEnd : Bool
  deriving DecidableEq, Repr

/-- Characters written before the rest of a walk. -/
def StringScan.after (bs : List Byte) (rest : StringScan) : StringScan :=
  { rest with bytes := bs ++ rest.bytes }

/-- How many words stand from an address to 0xFFFF, both included: the steps a walk can take without passing the end. -/
def wordsLeft (a : Word) : Nat := 65536 - a.toNat

/-- The loop of PUTS with `n` words left (43_trap.md R173). The reads are raw (decision D11; log entry 14). -/
def putsScan (m : Memory) : Nat → Word → StringScan
  | 0, _ => { bytes := [], pastEnd := true }
  | n + 1, a =>
    if m.readWord a = 0x0000#16 then { bytes := [], pastEnd := false }
    else (putsScan m n (a + 1#16)).after [loByte (m.readWord a)]

/-- `hi(v)`, the second character of a word (43_trap.md R179). -/
def putspHi (mode : PutspHighByte) (v : Word) : Byte :=
  match mode with
  | .logical => if hiByte v = 0x00#8 then 0x00#8 else 0x01#8
  | .byte => hiByte v

/-- The loop of PUTSP with `n` words left (43_trap.md R175). -/
def putspScan (mode : PutspHighByte) (m : Memory) : Nat → Word → StringScan
  | 0, _ => { bytes := [], pastEnd := true }
  | n + 1, a =>
    if m.readWord a = 0x0000#16 then { bytes := [], pastEnd := false }
    else if hiByte (m.readWord a) = 0x00#8 then { bytes := [loByte (m.readWord a)], pastEnd := false }
    else (putspScan mode m n (a + 1#16)).after [loByte (m.readWord a), putspHi mode (m.readWord a)]

/-- The effect of a walk: its characters, and the abort if it passed the end (43_trap.md R173, R175; 60_exceptions.md R211). -/
def State.emitScan (s : State) (scan : StringScan) : State :=
  if scan.pastEnd then (s.consolePutChars scan.bytes).raiseFatal .stringPastEnd
  else s.consolePutChars scan.bytes

/-! ## Services -/

/-- GETC (43_trap.md R171). -/
def getcService (s : State) : Host.Outcome State Fault Refusal :=
  match s.consoleGetChar with
  | some (c, s') => .next (s'.setReg .r0 (zextByte c))
  | none => .fault .waitingForKey

/-- OUT (R172). -/
def outService (s : State) : Host.Outcome State Fault Refusal :=
  .next (s.consolePutChar (loByte (s.reg .r0)))

/-- PUTS (R173). -/
def putsService (s : State) : Host.Outcome State Fault Refusal :=
  .next (s.emitScan (putsScan s.mem (wordsLeft (s.reg .r0)) (s.reg .r0)))

/-- IN (R174, decisions D14 and D22; log entries 17 and 26). -/
def inService (s : State) : Host.Outcome State Fault Refusal :=
  match (s.consolePutChars Config.inPrompt).consoleGetChar with
  | some (c, s') => .next ((s'.consolePutChar c).setReg .r0 (zextByte c))
  | none => .fault .waitingForKey

/-- PUTSP (R175) under either reading of the high character (R179). -/
def putspService (mode : PutspHighByte) (s : State) : Host.Outcome State Fault Refusal :=
  .next (s.emitScan (putspScan mode s.mem (wordsLeft (s.reg .r0)) (s.reg .r0)))

/-- HALT (R176, decision D15; log entry 18). -/
def haltService (s : State) : Host.Outcome State Fault Refusal :=
  .next (s.consolePutChars Config.haltMessage).enterHalted

/-- The services of the dispatcher (R170). -/
inductive TrapService where
  | getc | out | puts | inKey | putsp | halt
  deriving DecidableEq, Repr

/-- The service a vector selects (R170); no other vector has one (R177). -/
def trapService (vec : BitVec 8) : Option TrapService :=
  if vec = 0x20#8 then some .getc
  else if vec = 0x21#8 then some .out
  else if vec = 0x22#8 then some .puts
  else if vec = 0x23#8 then some .inKey
  else if vec = 0x24#8 then some .putsp
  else if vec = 0x25#8 then some .halt
  else none

/-! ## The rows -/

/-- TRAP x20 (R171). -/
def execGetc (s : State) : Host.Outcome State Fault Refusal := getcService s

/-- TRAP x21 (R172). -/
def execOut (s : State) : Host.Outcome State Fault Refusal := outService s

/-- TRAP x22 (R173). -/
def execPuts (s : State) : Host.Outcome State Fault Refusal := putsService s

/-- TRAP x23 (R174). -/
def execInKey (s : State) : Host.Outcome State Fault Refusal := inService s

/-- TRAP x24 (R175) under the machine's PUTSP_HIGH_BYTE (log entry 16). -/
def execPutsp (s : State) : Host.Outcome State Fault Refusal := putspService s.putspHighByte s

/-- TRAP x25 (R176). -/
def execHalt (s : State) : Host.Outcome State Fault Refusal := haltService s

/-- TRAP with any vector: the dispatch of R170, a no-op outside 0x20..0x25 (R177). -/
def execTrap (vec : BitVec 8) (s : State) : Host.Outcome State Fault Refusal :=
  match trapService vec with
  | some .getc => getcService s
  | some .out => outService s
  | some .puts => putsService s
  | some .inKey => inService s
  | some .putsp => putspService s.putspHighByte s
  | some .halt => haltService s
  | none => .next s

end Sys2Proof.Machine
end

