-- ==== Sys2Proof/Machine/Unimplemented.lean ====
section
/-! DEFINITION. The two opcodes without a handler (44_unimplemented.md): RTI and RES abort the machine. -/

namespace Sys2Proof.Machine

/-- RTI (44_unimplemented.md R200). -/
def execRti (s : State) : Host.Outcome State Fault Refusal :=
  .next (s.raiseFatal (.fatalOpcode .rti))

/-- RES (R201). -/
def execRes (s : State) : Host.Outcome State Fault Refusal :=
  .next (s.raiseFatal (.fatalOpcode .res))

end Sys2Proof.Machine
end

