-- ==== Sys2Proof/Machine/Cycle.lean ====
section
/-! DEFINITION. The instruction cycle (30_encoding.md R77) and the placing of a word where the next cycle fetches. -/

namespace Sys2Proof.Machine

/-- Fetch, increment, decode, execute (30_encoding.md R77). -/
def runCycle (s : State) : Host.Outcome State Fault Refusal :=
  exec (decodeWord s.fetch.1) s.fetch.2

/-- One step: an instruction cycle while Running. Halted and Aborted are terminal: nothing is fetched and nothing changes
(10_state.md R31; log entry 21: the model answers the same state). -/
def cycle (s : State) : Host.Outcome State Fault Refusal :=
  match s.run with
  | .running => runCycle s
  | .halted => .next s
  | .aborted _ => .next s

/-- An address whose fetch reads the stored word: 0xFE00 polls instead (20_memory.md R43), so the start address stands for it. -/
def fetchableFrom (pc : Word) : Word := if pc = Config.kbsr then Config.pcStart else pc

/-- The state with `w` stored where the next cycle fetches, and Running so that it does fetch (log entry 22). -/
def State.placeAtFetch (s : State) (w : Word) : State :=
  ({ s with run := .running, pc := fetchableFrom s.pc }).poke (fetchableFrom s.pc) w

end Sys2Proof.Machine
end

