-- ==== Sys2Proof/Machine/Step.lean ====
section
/-! DEFINITION. The step of the machine, and the host's way of placing one instruction where it is fetched. -/

namespace Sys2Proof.Machine

/-- One step of the machine: one instruction cycle (30_encoding.md R77, decision D1). -/
def step (s : State) : Host.Outcome State Fault Refusal := cycle s

/-- `s` with the instruction whose table bits are `w` stored where `step` fetches next; bits from `nbits` on are 0. -/
def State.withFetchWord (s : State) (nbits w : Nat) : State :=
  s.placeAtFetch (BitVec.ofNat 16 (w % 2 ^ nbits))

end Sys2Proof.Machine
end

