-- ==== Sys2Proof/Machine/Loader.lean ====
section
/-! DEFINITION. The Loader, the boot interface (70_reset_and_hazards.md R240, R242, R243, R244). It runs before the first
instruction cycle, outside `step`. -/

namespace Sys2Proof.Machine

/-- The big-endian words of an image; an odd trailing byte is ignored (70_reset_and_hazards.md R242, R244). -/
def imageWords : List Byte → List Word
  | hi :: lo :: rest => wordOfBytes hi lo :: imageWords rest
  | _ => []

/-- `for i in 0 .. n-1: M[origin + i] <- words[1 + i]`, words past 0xFFFF dropped (R242, R243); no port and no device hook. -/
def State.loadWords (s : State) (a : Nat) : List Word → State
  | [] => s
  | w :: ws => if a < 65536 then (s.poke (BitVec.ofNat 16 a) w).loadWords (a + 1) ws else s

/-- `load(bytes)` (R242); an image without an origin fails to load (R244, decision D20; log entry 22). -/
def State.load (s : State) (image : List Byte) : Option State :=
  match imageWords image with
  | [] => none
  | origin :: ws => some (s.loadWords origin.toNat ws)

/-- Reset, then the Loader (R240): the state the first instruction cycle starts from, or no machine at all. -/
def boot (image : List Byte) : Option State := State.reset.load image

end Sys2Proof.Machine
end

