-- ==== Sys2Proof/Safety.lean ====
section
/-! DEFINITION. The words claims use: the invariant, the end of a run, what a hooked read leaves behind, which rows of the opcode
table a word matches, and which instructions may write which piece of state. -/

namespace Sys2Proof.Machine

/-! ## Runs -/

/-- The invariant every step keeps: the memory is in its canonical form. -/
def State.Inv (s : State) : Prop := s.mem.wf = true

/-- A normal end: "the program ends" means Halted (60_exceptions.md R223, decision D23). -/
def State.normalEnd (s : State) : Prop := s.run = .halted

/-- The instruction the next cycle runs (30_encoding.md R77). -/
def State.nextInstr (s : State) : Instr := decodeWord s.fetch.1

/-! ## Two runs -/

/-- Two answers of one kind: next states in the relation, the same fault, or the same refusal. -/
def sameOutcome (r : State → State → Prop) (a b : Host.Outcome State Fault Refusal) : Prop :=
  (∃ t u, a = .next t ∧ b = .next u ∧ r t u) ∨ (∃ e, a = .fault e ∧ b = .fault e) ∨ ∃ e, a = .refused e ∧ b = .refused e

/-! ## What a hooked read leaves behind (20_memory.md R43) -/

/-- The outcome the next ConsolePoll has. -/
def State.nextPoll (s : State) : Option Byte :=
  match s.keyboard with
  | k :: _ => k
  | [] => Config.pollDraw s.draws

/-- M[b] after a hooked read of `a`, written from R43's own text. -/
def State.wordAfterRead (s : State) (a b : Word) : Word :=
  if a = Config.kbsr then
    match s.nextPoll with
    | some c => if b = Config.kbsr then 0x8000#16 else if b = Config.kbdr then zextByte c else s.rawRead b
    | none => if b = Config.kbsr then 0x0000#16 else s.rawRead b
  else s.rawRead b

/-- The settled draws after a hooked read of `a`: a poll takes one (20_memory.md R60). -/
def State.keyboardAfterRead (s : State) (a : Word) : List (Option Byte) :=
  if a = Config.kbsr then s.keyboard.tail else s.keyboard

/-- The count of free draws after a hooked read of `a`. -/
def State.drawsAfterRead (s : State) (a : Word) : Nat :=
  if a = Config.kbsr ∧ s.keyboard = [] then s.draws + 1 else s.draws

/-! ## Frames -/

/-- Every general register but `d` reads as before. -/
def State.sameRegsBut (s t : State) (d : Reg) : Prop := ∀ q, q ≠ d → t.reg q = s.reg q

/-- Every general register reads as before. -/
def State.sameRegs (s t : State) : Prop := ∀ q, t.reg q = s.reg q

/-- Every byte of memory reads as before, but those of the words in `ws`. -/
def State.sameBytesBut (s t : State) (ws : List Word) : Prop :=
  ∀ k, (∀ w ∈ ws, k ≠ wordKey w ∧ k ≠ wordKey w + 1) → t.mem.readByte k = s.mem.readByte k

/-- The host's side is as before: nothing written, no draw taken. -/
def State.sameConsole (s t : State) : Prop := t.out = s.out ∧ t.keyboard = s.keyboard ∧ t.draws = s.draws

/-- Memory and host input are what a hooked read of `a` leaves: every word as R43 says, no byte but those of KBSR and KBDR
changed, and none at all where `a` is not KBSR. -/
def State.readLeaves (s t : State) (a : Word) : Prop :=
  (∀ b, t.rawRead b = s.wordAfterRead a b) ∧
  s.sameBytesBut t (if a = Config.kbsr then [Config.kbsr, Config.kbdr] else []) ∧
  t.keyboard = s.keyboardAfterRead a ∧ t.draws = s.drawsAfterRead a

/-! ## Strings and images -/

/-- The words of memory from the address in R0 on are `ws` (43_trap.md R173, R175). -/
def State.stringIs (s : State) (ws : List Word) : Prop :=
  ∀ (k : Nat) (w : Word), ws[k]? = some w → s.rawRead (s.reg .r0 + BitVec.ofNat 16 k) = w

/-- The address after `ws` words from the address in R0 on, unwrapped: 65536 where they fill memory to 0xFFFF. -/
def State.stringEnd (s : State) (ws : List Word) : Nat := (s.reg .r0).toNat + ws.length

/-- The word of memory after `ws` words from the address in R0 on. -/
def State.wordAfterString (s : State) (ws : List Word) : Word :=
  s.rawRead (s.reg .r0 + BitVec.ofNat 16 ws.length)

/-- The two characters PUTSP writes for a word with a non-zero high byte (43_trap.md R175, R179). -/
def packedChars (mode : PutspHighByte) (w : Word) : List Byte :=
  match mode with
  | .logical => [w.extractLsb 7 0, 0x01#8]
  | .byte => [w.extractLsb 7 0, w.extractLsb 15 8]

/-- The bytes of an image of these words, big-endian (70_reset_and_hazards.md R242). -/
def imageOf : List Word → List Byte
  | [] => []
  | w :: ws => w.extractLsb 15 8 :: w.extractLsb 7 0 :: imageOf ws

end Sys2Proof.Machine

namespace Sys2Proof

/-! ## Which instructions may write what -/

/-- The destination of the instructions that set COND (10_state.md R27). -/
def Instr.flagDest : Instr → Option Reg
  | .addReg dr _ _ => some dr
  | .addImm dr _ _ => some dr
  | .andReg dr _ _ => some dr
  | .andImm dr _ _ => some dr
  | .not dr _ => some dr
  | .ld dr _ => some dr
  | .ldi dr _ => some dr
  | .ldr dr _ _ => some dr
  | .lea dr _ => some dr
  | .br _ _ => none
  | .jmp _ => none
  | .ret => none
  | .jsr _ => none
  | .jsrr _ => none
  | .st _ _ => none
  | .sti _ _ => none
  | .str _ _ _ => none
  | .getc => none
  | .out => none
  | .puts => none
  | .inKey => none
  | .putsp => none
  | .halt => none
  | .trap _ => none
  | .rti => none
  | .res => none

/-- TRAP in any of its rows (43_trap.md R170). -/
def Instr.isTrap : Instr → Bool
  | .getc => true
  | .out => true
  | .puts => true
  | .inKey => true
  | .putsp => true
  | .halt => true
  | .trap _ => true
  | .addReg _ _ _ | .addImm _ _ _ | .andReg _ _ _ | .andImm _ _ _ | .not _ _ | .br _ _ | .jmp _ | .ret | .jsr _
  | .jsrr _ | .ld _ _ | .ldi _ _ | .ldr _ _ _ | .lea _ _ | .st _ _ | .sti _ _ | .str _ _ _ | .rti | .res => false

/-- The control transfers, the only writers of `pc` beside the fetch (10_state.md R24). -/
def Instr.isTransfer : Instr → Bool
  | .br _ _ => true
  | .jmp _ => true
  | .ret => true
  | .jsr _ => true
  | .jsrr _ => true
  | .addReg _ _ _ | .addImm _ _ _ | .andReg _ _ _ | .andImm _ _ _ | .not _ _ | .ld _ _ | .ldi _ _ | .ldr _ _ _
  | .lea _ _ | .st _ _ | .sti _ _ | .str _ _ _ | .getc | .out | .puts | .inKey | .putsp | .halt | .trap _ | .rti | .res => false

/-- The stores (42_load_store.md R144, R145, R146). -/
def Instr.isStore : Instr → Bool
  | .st _ _ => true
  | .sti _ _ => true
  | .str _ _ _ => true
  | .addReg _ _ _ | .addImm _ _ _ | .andReg _ _ _ | .andImm _ _ _ | .not _ _ | .br _ _ | .jmp _ | .ret | .jsr _
  | .jsrr _ | .ld _ _ | .ldi _ _ | .ldr _ _ _ | .lea _ _ | .getc | .out | .puts | .inKey | .putsp | .halt | .trap _
  | .rti | .res => false

/-- The traps that may append to the output: OUT, PUTS, IN, PUTSP and HALT, by row or by vector (10_state.md R33). -/
def Instr.mayPrint : Instr → Bool
  | .out => true
  | .puts => true
  | .inKey => true
  | .putsp => true
  | .halt => true
  | .trap vec => vec = 0x21#8 || vec = 0x22#8 || vec = 0x23#8 || vec = 0x24#8 || vec = 0x25#8
  | .addReg _ _ _ | .addImm _ _ _ | .andReg _ _ _ | .andImm _ _ _ | .not _ _ | .br _ _ | .jmp _ | .ret | .jsr _
  | .jsrr _ | .ld _ _ | .ldi _ _ | .ldr _ _ _ | .lea _ _ | .st _ _ | .sti _ _ | .str _ _ _ | .getc | .rti | .res => false

/-- The traps that wait for a key: GETC and IN, by row or by vector (43_trap.md R171, R174). -/
def Instr.readsKey : Instr → Bool
  | .getc => true
  | .inKey => true
  | .trap vec => vec = 0x20#8 || vec = 0x23#8
  | .addReg _ _ _ | .addImm _ _ _ | .andReg _ _ _ | .andImm _ _ _ | .not _ _ | .br _ _ | .jmp _ | .ret | .jsr _
  | .jsrr _ | .ld _ _ | .ldi _ _ | .ldr _ _ _ | .lea _ _ | .st _ _ | .sti _ _ | .str _ _ _ | .out | .puts | .putsp
  | .halt | .rti | .res => false

/-! ## The opcode table -/

/-- "match" of a constructor's row in spec/opcode_table.json. -/
def Instr.rowMatch : Instr → Word
  | .addReg _ _ _ => 0x1000#16
  | .addImm _ _ _ => 0x1020#16
  | .andReg _ _ _ => 0x5000#16
  | .andImm _ _ _ => 0x5020#16
  | .not _ _ => 0x9000#16
  | .br _ _ => 0x0000#16
  | .jmp _ => 0xC000#16
  | .ret => 0xC1C0#16
  | .jsr _ => 0x4800#16
  | .jsrr _ => 0x4000#16
  | .ld _ _ => 0x2000#16
  | .ldi _ _ => 0xA000#16
  | .ldr _ _ _ => 0x6000#16
  | .lea _ _ => 0xE000#16
  | .st _ _ => 0x3000#16
  | .sti _ _ => 0xB000#16
  | .str _ _ _ => 0x7000#16
  | .getc => 0xF020#16
  | .out => 0xF021#16
  | .puts => 0xF022#16
  | .inKey => 0xF023#16
  | .putsp => 0xF024#16
  | .halt => 0xF025#16
  | .trap _ => 0xF000#16
  | .rti => 0x8000#16
  | .res => 0xD000#16

/-- "mask" of a constructor's row in spec/opcode_table.json. -/
def Instr.rowMask : Instr → Word
  | .addReg _ _ _ => 0xF020#16
  | .addImm _ _ _ => 0xF020#16
  | .andReg _ _ _ => 0xF020#16
  | .andImm _ _ _ => 0xF020#16
  | .not _ _ => 0xF000#16
  | .br _ _ => 0xF000#16
  | .jmp _ => 0xF000#16
  | .ret => 0xF1C0#16
  | .jsr _ => 0xF800#16
  | .jsrr _ => 0xF800#16
  | .ld _ _ => 0xF000#16
  | .ldi _ _ => 0xF000#16
  | .ldr _ _ _ => 0xF000#16
  | .lea _ _ => 0xF000#16
  | .st _ _ => 0xF000#16
  | .sti _ _ => 0xF000#16
  | .str _ _ _ => 0xF000#16
  | .getc => 0xF0FF#16
  | .out => 0xF0FF#16
  | .puts => 0xF0FF#16
  | .inKey => 0xF0FF#16
  | .putsp => 0xF0FF#16
  | .halt => 0xF0FF#16
  | .trap _ => 0xF000#16
  | .rti => 0xF000#16
  | .res => 0xF000#16

/-- The bits of a word its instruction looks at: all but the don't-care bits (30_encoding.md R79). -/
def Instr.careMask : Instr → Word
  | .addReg _ _ _ => 0xFFE7#16
  | .addImm _ _ _ => 0xFFFF#16
  | .andReg _ _ _ => 0xFFE7#16
  | .andImm _ _ _ => 0xFFFF#16
  | .not _ _ => 0xFFC0#16
  | .br _ _ => 0xFFFF#16
  | .jmp _ => 0xF1C0#16
  | .ret => 0xF1C0#16
  | .jsr _ => 0xFFFF#16
  | .jsrr _ => 0xF9C0#16
  | .ld _ _ => 0xFFFF#16
  | .ldi _ _ => 0xFFFF#16
  | .ldr _ _ _ => 0xFFFF#16
  | .lea _ _ => 0xFFFF#16
  | .st _ _ => 0xFFFF#16
  | .sti _ _ => 0xFFFF#16
  | .str _ _ _ => 0xFFFF#16
  | .getc => 0xF0FF#16
  | .out => 0xF0FF#16
  | .puts => 0xF0FF#16
  | .inKey => 0xF0FF#16
  | .putsp => 0xF0FF#16
  | .halt => 0xF0FF#16
  | .trap _ => 0xF0FF#16
  | .rti => 0xF000#16
  | .res => 0xF000#16

end Sys2Proof
end

