-- ==== Sys2Proof/Certificates/Slice0/Obligations.lean ====
section
/-! DEFINITION. The statements for the provers. Each docstring says which rule or section of spec/ it formalises and which log
entries it rests on. `exec` is stated at the state after the fetch: `pc` is already the instruction's address + 1. -/

open Sys2Proof Sys2Proof.Machine

/-- 70_reset_and_hazards.md R241: the entry point. The last clause says that no vector in memory moves it: with any memory in
place of the reset memory, the first cycle still runs the word at 0x3000. -/
def Obligations.ResetStatedValues : Prop :=
  State.reset.run = .running ∧ State.reset.pc = 0x3000#16 ∧
  ∀ m : Memory,
    step { State.reset with mem := m } =
      exec (decodeWord (m.readWord 0x3000#16)) { State.reset with mem := m, pc := 0x3001#16 }

/-- The reset table of 10_state.md section 7. Registers, COND and memory rest on the decisions D4, D5, D6 (log entries 2, 3,
4: DESIGN CHOICE), the default of PUTSP_HIGH_BYTE on 00_scope.md section 3 and D13 (log entry 16). -/
def Obligations.ResetChosenValues : Prop :=
  (∀ r, State.reset.reg r = 0x0000#16) ∧ State.reset.cond = .z ∧
  (∀ a, State.reset.rawRead a = 0x0000#16) ∧ State.reset.out = [] ∧ State.reset.putspHighByte = .logical

/-- The start of the invariant of StepKeepsInvariant. -/
def Obligations.ResetMeetsInvariant : Prop :=
  State.reset.Inv

/-- "size is fixed for the process lifetime; no entry is ever absent" (20_memory.md section 1), for the form the model holds
memory in (log entry 1). -/
def Obligations.StepKeepsInvariant : Prop :=
  ∀ s t : State, s.Inv → step s = .next t → t.Inv

/-- The formats of 30_encoding.md section 2 and the canonical words of section 6. The opcode numbers are decision D2 (log
entry 5: PRESUMED). -/
def Obligations.DecodeOfEncode : Prop :=
  ∀ i : Instr, i.wellFormed = true →
    decodeWord (encode i) = i ∧ ∀ rest, decodeBytes (encodeBytes i ++ rest) = .instr i rest

/-- "decode is total on all 2^16 words" (30_encoding.md section 4), with the match and mask of spec/opcode_table.json written
out in Instr.rowMatch and Instr.rowMask. Opcode numbers: decision D2 (log entry 5). -/
def Obligations.DecodedWordMatchesItsRow : Prop :=
  ∀ w : Word, (decodeWord w).wellFormed = true ∧ w &&& (decodeWord w).rowMask = (decodeWord w).rowMatch

/-- The care mask of each instruction is the complement of the bits marked x in 30_encoding.md section 2 (decision D7; log
entry 7). -/
def Obligations.DecodeDropsOnlyDontCareBits : Prop :=
  ∀ w : Word, encode (decodeWord w) &&& (decodeWord w).careMask = w &&& (decodeWord w).careMask

/-- "A word that differs from another only in those bits decodes to the same instruction and does the same thing"
(30_encoding.md section 4; decision D7, the spec's own choice; log entry 7). -/
def Obligations.DontCareBitsIgnored : Prop :=
  ∀ w v : Word, w &&& (decodeWord w).careMask = v &&& (decodeWord w).careMask →
    decodeWord v = decodeWord w ∧ ∀ s : State, exec (decodeWord v) s = exec (decodeWord w) s

/-- Words of 95_test_vectors.md sections 3 and 5 and the pseudo-instruction table of 30_encoding.md section 6. The opcode
numbers are decision D2 (log entry 5: PRESUMED). -/
def Obligations.WordsOfTheSpecDecode : Prop :=
  decodeWord 0x1042#16 = .addReg .r0 .r1 .r2 ∧ decodeWord 0x127F#16 = .addImm .r1 .r1 0b11111#5 ∧
  decodeWord 0x96BF#16 = .not .r3 .r2 ∧ decodeWord 0x03FD#16 = .br 0b001#3 0x1FD#9 ∧
  decodeWord 0xC1C0#16 = .ret ∧ decodeWord 0x4804#16 = .jsr 4#11 ∧ decodeWord 0x40C0#16 = .jsrr .r3 ∧
  decodeWord 0xA806#16 = .ldi .r4 6#9 ∧ decodeWord 0x7782#16 = .str .r3 .r6 2#6 ∧
  decodeWord 0xF025#16 = .halt ∧ decodeWord 0xF026#16 = .trap 0x26#8 ∧ decodeWord 0x8000#16 = .rti

/-- The per-cycle protocol of 30_encoding.md section 4. That the fetch goes through the device hook is decision D10 (log entry
13). -/
def Obligations.StepRunsTheDecodedInstruction : Prop :=
  ∀ s : State, s.run = .running →
    (decodeWord (s.wordAfterRead s.pc s.pc)).wellFormed = true ∧
    step s =
      exec (decodeWord (s.wordAfterRead s.pc s.pc)) { (s.memRead s.pc).2 with pc := s.pc + 1#16 } ∧
    (s.pc ≠ 0xFE00#16 → step s = exec (decodeWord (s.rawRead s.pc)) { s with pc := s.pc + 1#16 })

/-- "Halted and Aborted are terminal. No instruction is fetched in either, and nothing leaves them" (10_state.md section 6).
The stutter is DESIGN CHOICE (log entry 21). -/
def Obligations.TerminalStatesStay : Prop :=
  (∀ s : State, s.run = .halted → step s = .next s) ∧
  ∀ (s : State) (e : AbortReason), s.run = .aborted e → step s = .next s

/-- "Arithmetic never traps", "Memory accesses never trap" (60_exceptions.md section 1); GETC and IN wait on the host
(decision D18; log entry 11). -/
def Obligations.StepAnswersOrWaits : Prop :=
  ∀ s : State, (∃ t, step s = .next t) ∨
    (s.run = .running ∧ (s.nextInstr = .getc ∨ s.nextInstr = .inKey) ∧ step s = .fault .waitingForKey)

/-- "entered only by executing the HALT trap" (10_state.md section 6) and the abort table of 60_exceptions.md section 1.
StringPastEnd is decision D12 (log entry 15). -/
def Obligations.OnlyHaltHaltsOnlyFatalsAbort : Prop :=
  ∀ s t : State, s.run = .running → step s = .next t →
    (t.run = .halted ↔ s.nextInstr = .halt) ∧
    (t.run = .aborted (.fatalOpcode .rti) ↔ s.nextInstr = .rti) ∧
    (t.run = .aborted (.fatalOpcode .res) ↔ s.nextInstr = .res) ∧
    (t.run = .aborted .stringPastEnd → s.nextInstr = .puts ∨ s.nextInstr = .putsp)

/-- The preciseness paragraph of 60_exceptions.md section 4: "the faulting instruction has changed only pc", by the fetch
increment, which stands outside exec. -/
def Obligations.AbortsArePrecise : Prop :=
  ∀ (i : Instr) (s t : State) (e : AbortReason), s.run = .running → exec i s = .next t → t.run = .aborted e →
    s.sameRegs t ∧ t.pc = s.pc ∧ t.cond = s.cond ∧ t.mem = s.mem ∧ t.keyboard = s.keyboard ∧ t.draws = s.draws ∧
    t.putspHighByte = s.putspHighByte ∧ (∃ bs, t.out = s.out ++ bs) ∧ ((i = .rti ∨ i = .res) → t.out = s.out)

/-- "No single instruction polls twice" (70_reset_and_hazards.md section 3): a poll returns 0x8000 or 0x0000, never 0xFE00,
and a fetch from 0xFE00 yields RTI or a no-op. That a poll returns 0x8000 whole is decision D8 (log entry 8), that the fetch
polls D10 (log entry 13), that string walks do not D11 (log entry 14), and the draws are those of D9 (log entry 9). -/
def Obligations.NoStepPollsTwice : Prop :=
  ∀ s t : State, s.nextInstr ≠ .getc → s.nextInstr ≠ .inKey → step s = .next t →
    (t.keyboard = s.keyboard ∧ t.draws = s.draws) ∨
    (t.keyboard = s.keyboard.tail ∧ t.draws = if s.keyboard = [] then s.draws + 1 else s.draws)

/-- "A store is visible to every later instruction fetch, starting with the very next one" (20_memory.md section 5), for each
of the three stores. Where the pointer cell of STI is KBSR, its pointer is the poll of decisions D8 and D9 (log entries 8, 9). -/
def Obligations.StoreIsSeenByTheNextFetch : Prop :=
  ∀ (s : State) (sr : Reg), s.run = .running → s.pc ≠ 0xFE00#16 → s.pc + 1#16 ≠ 0xFE00#16 →
    ((∃ off9, decodeWord (s.rawRead s.pc) = .st sr off9 ∧ s.pc + 1#16 + sext off9 = s.pc + 1#16) ∨
      (∃ baseR off6, decodeWord (s.rawRead s.pc) = .str sr baseR off6 ∧ s.reg baseR + sext off6 = s.pc + 1#16) ∨
      ∃ off9, decodeWord (s.rawRead s.pc) = .sti sr off9 ∧
        s.wordAfterRead (s.pc + 1#16 + sext off9) (s.pc + 1#16 + sext off9) = s.pc + 1#16) →
    ∃ t, step s = .next t ∧ t.pc = s.pc + 1#16 ∧ t.rawRead t.pc = s.reg sr ∧
      step t = exec (decodeWord (s.reg sr)) { t with pc := t.pc + 1#16 }

/-- "unconditional store" (20_memory.md section 2) and "A read returns the value of the latest write to that cell" (section
5). That the device cells just store is decision D17 (log entry 20). -/
def Obligations.MemoryWritesReadBackAndCommute : Prop :=
  (∀ (s : State) (a v : Word),
    (s.memWrite a v).rawRead a = v ∧ (∀ b, b ≠ a → (s.memWrite a v).rawRead b = s.rawRead b) ∧
    s.sameBytesBut (s.memWrite a v) [a] ∧ s.memWrite a v = { s with mem := (s.memWrite a v).mem }) ∧
  ∀ (m : Memory) (a b v w : Word), m.wf = true →
    (m.writeWord a v).writeWord a w = m.writeWord a w ∧
    (a ≠ b → (m.writeWord a v).writeWord b w = (m.writeWord b w).writeWord a v) ∧
    m.writeWord a (m.readWord a) = m

/-- The point of the canonical form (log entry 1): memory is a mapping from address to Word (20_memory.md section 1), and one
mapping has one representation. -/
def Obligations.EqualMemoriesAreEqualData : Prop :=
  ∀ m m' : Memory, m.wf = true → m'.wf = true → (∀ a : Word, m.readWord a = m'.readWord a) → m = m'

/-- The definition of MemRead in 20_memory.md section 2. The whole-word write 0x8000 is decision D8 (log entry 8) and the draw
decision D9 (log entry 9). -/
def Obligations.ReadOfKbsrPolls : Prop :=
  ∀ s : State, ∃ t,
    (s.memRead 0xFE00#16).2 = t ∧
    (match s.nextPoll with
      | some c => (s.memRead 0xFE00#16).1 = 0x8000#16 ∧ t.rawRead 0xFE00#16 = 0x8000#16 ∧
          t.rawRead 0xFE02#16 = c.zeroExtend 16
      | none => (s.memRead 0xFE00#16).1 = 0x0000#16 ∧ t.rawRead 0xFE00#16 = 0x0000#16 ∧
          t.rawRead 0xFE02#16 = s.rawRead 0xFE02#16) ∧
    s.sameBytesBut t [0xFE00#16, 0xFE02#16] ∧
    t.regs = s.regs ∧ t.pc = s.pc ∧ t.cond = s.cond ∧ t.run = s.run ∧ t.out = s.out ∧
    t.keyboard = s.keyboard.tail ∧ t.draws = (if s.keyboard = [] then s.draws + 1 else s.draws)

/-- 20_memory.md R44. The second clause says that equality with 0xFE00 does trigger the poll, for every state, in the fields
the model holds the host in (decision D9; log entry 9: DESIGN CHOICE). -/
def Obligations.OnlyKbsrReadsHaveEffects : Prop :=
  (∀ (s : State) (a : Word), a ≠ 0xFE00#16 → s.memRead a = (s.rawRead a, s)) ∧
  ∀ s : State,
    ((s.memRead 0xFE00#16).2.keyboard.length + 1 = s.keyboard.length ∧ (s.memRead 0xFE00#16).2.draws = s.draws) ∨
    (s.keyboard = [] ∧ (s.memRead 0xFE00#16).2.keyboard = [] ∧ (s.memRead 0xFE00#16).2.draws = s.draws + 1)

/-- 20_memory.md R45: no side effect; the value is that of the latest of a store and a poll that found a key; a poll that
finds none leaves it. State.nextPoll is the outcome the next poll has, whatever it is (decision D9; log entry 9: DESIGN
CHOICE). That a store to 0xFE02 just stores is decision D17 (log entry 20: DESIGN CHOICE). -/
def Obligations.KbdrReadIsPlain : Prop :=
  (∀ s : State, s.memRead 0xFE02#16 = (s.rawRead 0xFE02#16, s)) ∧
  (∀ (s : State) (v : Word), ((s.memWrite 0xFE02#16 v).memRead 0xFE02#16).1 = v) ∧
  (∀ (s : State) (c : Byte), s.nextPoll = some c →
    ((s.memRead 0xFE00#16).2.memRead 0xFE02#16).1 = c.zeroExtend 16) ∧
  ∀ s : State, s.nextPoll = none →
    ((s.memRead 0xFE00#16).2.memRead 0xFE02#16).1 = s.rawRead 0xFE02#16

/-- 10_state.md R26. -/
def Obligations.SetCcFollowsTheResult : Prop :=
  ∀ (s : State) (v : Word),
    s.setCc v = { s with cond := if v = 0x0000#16 then .z else if v[15] = true then .n else .p }

/-- 10_state.md R27. Instr.flagDest lists the seven with their destination. That JSR, JSRR, GETC and IN leave COND is decision
D16 (log entry 19: DESIGN CHOICE). -/
def Obligations.SevenInstructionsWriteCond : Prop :=
  ∀ (i : Instr) (s t : State), exec i s = .next t →
    match i.flagDest with
    | some d => t.cond = if t.reg d = 0x0000#16 then .z else if (t.reg d)[15] = true then .n else .p
    | none => t.cond = s.cond

/-- 10_state.md R28, as two runs that differ in COND only. The last clause is BRz +1 with COND = Z and with COND = N. That
JSR, JSRR, GETC and IN leave COND is decision D16 (log entry 19: DESIGN CHOICE). -/
def Obligations.OnlyBrReadsCond : Prop :=
  (∀ (i : Instr) (s : State) (c : Cond), (∀ nzp off9, i ≠ .br nzp off9) →
    sameOutcome (fun t u => u = { t with cond := if i.flagDest = none then c else t.cond })
      (exec i s) (exec i { s with cond := c })) ∧
  ∃ (s : State) (t u : State), exec (.br 0b010#3 1#9) { s with cond := .z } = .next t ∧
    exec (.br 0b010#3 1#9) { s with cond := .n } = .next u ∧ t.pc ≠ u.pc

/-- 10_state.md R33. Instr.mayPrint lists the five, by row and by vector. -/
def Obligations.OnlyFiveTrapsWriteOutput : Prop :=
  State.reset.out = [] ∧ (∀ (s : State) (b : Byte), s.consolePutChar b = { s with out := s.out ++ [b] }) ∧
  ∀ (i : Instr) (s t : State), exec i s = .next t →
    (∃ bs, t.out = s.out ++ bs) ∧ (i.mayPrint = false → t.out = s.out)

/-- "BR, JMP, JSR and JSRR write pc as their rules say. No other instruction writes it" (10_state.md section 3). -/
def Obligations.OnlyTransfersWritePc : Prop :=
  ∀ (i : Instr) (s t : State), i.isTransfer = false → exec i s = .next t → t.pc = s.pc

/-- "Writes have no side effect beyond the stored cell" and "Only a read of 0xFE00 has a side effect" (20_memory.md section
3). -/
def Obligations.OnlyStoresAndPollsWriteMemory : Prop :=
  ∀ (i : Instr) (s t : State), i.isStore = false → exec i s = .next t →
    s.sameBytesBut t [0xFE00#16, 0xFE02#16] ∧
    (i.readsKey = false → t.keyboard = s.keyboard → t.draws = s.draws → t.mem = s.mem)

/-- 00_scope.md R9 with the law W2 of 95_test_vectors.md (extending an already extended value changes nothing). -/
def Obligations.SignExtensionFillsHighBits : Prop :=
  (∀ (n : Nat) (v : BitVec n), (n = 5 ∨ n = 6 ∨ n = 9 ∨ n = 11) →
    (∀ i, i < 16 → (sext v).getLsbD i = if i < n then v.getLsbD i else v.getLsbD (n - 1)) ∧
    sext ((sext v).extractLsb' 0 n) = sext v) ∧
  ∀ (c : Byte) (i : Nat), (zextByte c).getLsbD i = (decide (i < 8) && c.getLsbD i)

/-- 40_operate.md R100, with the opcode number of decision D2 (log entry 5: PRESUMED) in its first clause, the encoding. The
second clause is the result, COND from setcc, and the frame; sources are read before DR is written, so DR may be any of them. -/
def Obligations.AddRegisterAdds : Prop :=
  (∀ w : Word, w &&& 0xF020#16 = 0x1000#16 →
    decodeWord w = .addReg (Reg.ofBits (w.extractLsb 11 9)) (Reg.ofBits (w.extractLsb 8 6))
      (Reg.ofBits (w.extractLsb 2 0))) ∧
  ∀ (dr sr1 sr2 : Reg) (s : State), ∃ t,
    exec (.addReg dr sr1 sr2) s = .next t ∧ t.reg dr = s.reg sr1 + s.reg sr2 ∧ s.sameRegsBut t dr ∧
    t = { s with regs := t.regs, cond := condOf (s.reg sr1 + s.reg sr2) } ∧
    (t.reg dr).toNat = ((s.reg sr1).toNat + (s.reg sr2).toNat) % 65536

/-- 40_operate.md R101, with the opcode number of decision D2 (log entry 5: PRESUMED) in its first clause, the encoding. The
second clause is the result, COND from setcc, and the frame; sources are read before DR is written, so DR may be any of them. -/
def Obligations.AddImmediateAdds : Prop :=
  (∀ w : Word, w &&& 0xF020#16 = 0x1020#16 →
    decodeWord w = .addImm (Reg.ofBits (w.extractLsb 11 9)) (Reg.ofBits (w.extractLsb 8 6)) (w.extractLsb 4 0)) ∧
  ∀ (dr sr1 : Reg) (imm5 : BitVec 5) (s : State), ∃ t,
    exec (.addImm dr sr1 imm5) s = .next t ∧ t.reg dr = s.reg sr1 + sext imm5 ∧ s.sameRegsBut t dr ∧
    t = { s with regs := t.regs, cond := condOf (s.reg sr1 + sext imm5) }

/-- 40_operate.md R102, with the opcode number of decision D2 (log entry 5: PRESUMED) in its first clause, the encoding. The
second clause is the result, COND from setcc, and the frame; sources are read before DR is written, so DR may be any of them. -/
def Obligations.AndRegisterAnds : Prop :=
  (∀ w : Word, w &&& 0xF020#16 = 0x5000#16 →
    decodeWord w = .andReg (Reg.ofBits (w.extractLsb 11 9)) (Reg.ofBits (w.extractLsb 8 6))
      (Reg.ofBits (w.extractLsb 2 0))) ∧
  ∀ (dr sr1 sr2 : Reg) (s : State), ∃ t,
    exec (.andReg dr sr1 sr2) s = .next t ∧ t.reg dr = s.reg sr1 &&& s.reg sr2 ∧ s.sameRegsBut t dr ∧
    t = { s with regs := t.regs, cond := condOf (s.reg sr1 &&& s.reg sr2) } ∧
    ∀ k, (t.reg dr).getLsbD k = ((s.reg sr1).getLsbD k && (s.reg sr2).getLsbD k)

/-- 40_operate.md R103, with the opcode number of decision D2 (log entry 5: PRESUMED) in its first clause, the encoding. The
second clause is the result, COND from setcc, and the frame; sources are read before DR is written, so DR may be any of them. -/
def Obligations.AndImmediateAnds : Prop :=
  (∀ w : Word, w &&& 0xF020#16 = 0x5020#16 →
    decodeWord w = .andImm (Reg.ofBits (w.extractLsb 11 9)) (Reg.ofBits (w.extractLsb 8 6)) (w.extractLsb 4 0)) ∧
  ∀ (dr sr1 : Reg) (imm5 : BitVec 5) (s : State), ∃ t,
    exec (.andImm dr sr1 imm5) s = .next t ∧ t.reg dr = s.reg sr1 &&& sext imm5 ∧ s.sameRegsBut t dr ∧
    t = { s with regs := t.regs, cond := condOf (s.reg sr1 &&& sext imm5) }

/-- 40_operate.md R104, with the opcode number of decision D2 (log entry 5: PRESUMED) in its first clause, the encoding. The
second clause is the result, COND from setcc, and the frame; sources are read before DR is written, so DR may be any of them. -/
def Obligations.NotComplements : Prop :=
  (∀ w : Word, w &&& 0xF000#16 = 0x9000#16 →
    decodeWord w = .not (Reg.ofBits (w.extractLsb 11 9)) (Reg.ofBits (w.extractLsb 8 6))) ∧
  ∀ (dr sr : Reg) (s : State), ∃ t,
    exec (.not dr sr) s = .next t ∧ t.reg dr = ~~~ s.reg sr ∧ s.sameRegsBut t dr ∧
    t = { s with regs := t.regs, cond := condOf (~~~ s.reg sr) } ∧
    ∀ k, k < 16 → (t.reg dr).getLsbD k = !(s.reg sr).getLsbD k

/-- "Software computes a - b as a + (~b + 1)" (40_operate.md, the arithmetic laws). -/
def Obligations.SubtractionByComplement : Prop :=
  ∀ (d a b : Reg) (s : State), a ≠ d → ∃ t u v,
    exec (.not d b) s = .next t ∧ exec (.addImm d d 1#5) t = .next u ∧ exec (.addReg d d a) u = .next v ∧
    v.reg d = s.reg a - s.reg b ∧ v.cond = condOf (s.reg a - s.reg b) ∧ s.sameRegsBut v d

/-- 41_control.md R120, with enc(COND) written out; its values for N and P are decision D3 (log entry 6: DESIGN CHOICE). The
opcode number in the first clause is decision D2 (log entry 5: PRESUMED). -/
def Obligations.BrBranchesOnMask : Prop :=
  (∀ w : Word, w &&& 0xF000#16 = 0x0000#16 → decodeWord w = .br (w.extractLsb 11 9) (w.extractLsb 8 0)) ∧
  ∀ (nzp : BitVec 3) (off9 : BitVec 9) (s : State),
    exec (.br nzp off9) s = .next { s with pc := (
      if nzp &&& (match s.cond with | .n => 0b100#3 | .z => 0b010#3 | .p => 0b001#3) ≠ 0b000#3
      then s.pc + sext off9 else s.pc) }

/-- 41_control.md R122. RET is a constructor of its own for the words of JMP R7 (log entry 23). The opcode number in the first
clause is decision D2 (log entry 5: PRESUMED). -/
def Obligations.JmpAndRetJumpToRegister : Prop :=
  (∀ w : Word, w &&& 0xF000#16 = 0xC000#16 →
    decodeWord w = if w.extractLsb 8 6 = 0b111#3 then .ret else .jmp (Reg.ofBits (w.extractLsb 8 6))) ∧
  (∀ (baseR : Reg) (s : State), exec (.jmp baseR) s = .next { s with pc := s.reg baseR }) ∧
  ∀ s : State, exec .ret s = .next { s with pc := s.reg .r7 }

/-- 41_control.md R123; the last clause is the return of R122. The opcode number in the first clause is decision D2 (log entry
5: PRESUMED). -/
def Obligations.JsrLinksAndBranches : Prop :=
  (∀ w : Word, w &&& 0xF800#16 = 0x4800#16 → decodeWord w = .jsr (w.extractLsb 10 0)) ∧
  ∀ (off11 : BitVec 11) (s : State), ∃ t,
    exec (.jsr off11) s = .next t ∧ t.reg .r7 = s.pc ∧ s.sameRegsBut t .r7 ∧
    t = { s with regs := t.regs, pc := s.pc + sext off11 } ∧
    ∀ u : State, u.reg .r7 = t.reg .r7 → exec .ret u = .next { u with pc := s.pc }

/-- 41_control.md R124, both corner cases. The opcode number in the first clause is decision D2 (log entry 5: PRESUMED). -/
def Obligations.JsrrLinksFirst : Prop :=
  (∀ w : Word, w &&& 0xF800#16 = 0x4000#16 → decodeWord w = .jsrr (Reg.ofBits (w.extractLsb 8 6))) ∧
  ∀ (baseR : Reg) (s : State), ∃ t,
    exec (.jsrr baseR) s = .next t ∧ t.reg .r7 = s.pc ∧ s.sameRegsBut t .r7 ∧
    t = { s with regs := t.regs, pc := if baseR = .r7 then s.pc else s.reg baseR }

/-- 42_load_store.md R140, with the opcode number of decision D2 (log entry 5: PRESUMED) and, at 0xFE00, the poll of decisions
D8 and D9 (log entries 8, 9). State.wordAfterRead is MemRead of 20_memory.md R43 written out (a read of 0xFE00 polls);
State.readLeaves says what that read leaves of memory and the host's side. -/
def Obligations.LdLoads : Prop :=
  (∀ w : Word, w &&& 0xF000#16 = 0x2000#16 →
    decodeWord w = .ld (Reg.ofBits (w.extractLsb 11 9)) (w.extractLsb 8 0)) ∧
  ∀ (dr : Reg) (off9 : BitVec 9) (s : State), ∃ t,
    exec (.ld dr off9) s = .next t ∧ t.reg dr = s.wordAfterRead (s.pc + sext off9) (s.pc + sext off9) ∧
    s.sameRegsBut t dr ∧ t.cond = condOf (s.wordAfterRead (s.pc + sext off9) (s.pc + sext off9)) ∧
    t.pc = s.pc ∧ t.run = s.run ∧ t.out = s.out ∧ s.readLeaves t (s.pc + sext off9)

/-- 42_load_store.md R142, with the opcode number of decision D2 (log entry 5: PRESUMED) and, at 0xFE00, the poll of decisions
D8 and D9 (log entries 8, 9). State.wordAfterRead is MemRead of 20_memory.md R43 written out (a read of 0xFE00 polls);
State.readLeaves says what that read leaves of memory and the host's side. -/
def Obligations.LdrLoads : Prop :=
  (∀ w : Word, w &&& 0xF000#16 = 0x6000#16 →
    decodeWord w = .ldr (Reg.ofBits (w.extractLsb 11 9)) (Reg.ofBits (w.extractLsb 8 6))
      (w.extractLsb 5 0)) ∧
  ∀ (dr baseR : Reg) (off6 : BitVec 6) (s : State), ∃ t,
    exec (.ldr dr baseR off6) s = .next t ∧ t.reg dr = s.wordAfterRead (s.reg baseR + sext off6) (s.reg baseR + sext off6) ∧
    s.sameRegsBut t dr ∧ t.cond = condOf (s.wordAfterRead (s.reg baseR + sext off6) (s.reg baseR + sext off6)) ∧
    t.pc = s.pc ∧ t.run = s.run ∧ t.out = s.out ∧ s.readLeaves t (s.reg baseR + sext off6)

/-- 42_load_store.md R141. The state between the reads is State.memRead, which ReadOfKbsrPolls and OnlyKbsrReadsHaveEffects
state. The opcode number in the first clause is decision D2 (log entry 5: PRESUMED). The poll is decisions D8 and D9 (log
entries 8, 9). -/
def Obligations.LdiLoadsIndirect : Prop :=
  (∀ w : Word, w &&& 0xF000#16 = 0xA000#16 →
    decodeWord w = .ldi (Reg.ofBits (w.extractLsb 11 9)) (w.extractLsb 8 0)) ∧
  ∀ (dr : Reg) (off9 : BitVec 9) (s m : State) (p : Word), s.memRead (s.pc + sext off9) = (p, m) → ∃ t,
    exec (.ldi dr off9) s = .next t ∧ p = s.wordAfterRead (s.pc + sext off9) (s.pc + sext off9) ∧
    t.reg dr = m.wordAfterRead p p ∧ s.sameRegsBut t dr ∧ t.cond = condOf (m.wordAfterRead p p) ∧
    t.pc = s.pc ∧ t.run = s.run ∧ t.out = s.out ∧
    s.readLeaves m (s.pc + sext off9) ∧ m.readLeaves t p ∧ (s.pc + sext off9 = 0xFE00#16 → p ≠ 0xFE00#16)

/-- 42_load_store.md R143. The opcode number in the first clause is decision D2 (log entry 5: PRESUMED). -/
def Obligations.LeaComputesAddress : Prop :=
  (∀ w : Word, w &&& 0xF000#16 = 0xE000#16 →
    decodeWord w = .lea (Reg.ofBits (w.extractLsb 11 9)) (w.extractLsb 8 0)) ∧
  ∀ (dr : Reg) (off9 : BitVec 9) (s : State), ∃ t,
    exec (.lea dr off9) s = .next t ∧ t.reg dr = s.pc + sext off9 ∧ s.sameRegsBut t dr ∧
    t = { s with regs := t.regs, cond := condOf (s.pc + sext off9) }

/-- 42_load_store.md R144, with the opcode number of decision D2 (log entry 5: PRESUMED). A store to 0xFE00 or 0xFE02 just
stores (decision D17; log entry 20). -/
def Obligations.StStores : Prop :=
  (∀ w : Word, w &&& 0xF000#16 = 0x3000#16 →
    decodeWord w = .st (Reg.ofBits (w.extractLsb 11 9)) (w.extractLsb 8 0)) ∧
  ∀ (sr : Reg) (off9 : BitVec 9) (s : State) (ea : Word), s.pc + sext off9 = ea → ∃ t,
    exec (.st sr off9) s = .next t ∧ t.rawRead ea = s.reg sr ∧ (∀ a, a ≠ ea → t.rawRead a = s.rawRead a) ∧
    s.sameBytesBut t [ea] ∧ t = { s with mem := t.mem }

/-- 42_load_store.md R146, with the opcode number of decision D2 (log entry 5: PRESUMED). A store to 0xFE00 or 0xFE02 just
stores (decision D17; log entry 20). -/
def Obligations.StrStores : Prop :=
  (∀ w : Word, w &&& 0xF000#16 = 0x7000#16 →
    decodeWord w = .str (Reg.ofBits (w.extractLsb 11 9)) (Reg.ofBits (w.extractLsb 8 6))
      (w.extractLsb 5 0)) ∧
  ∀ (sr baseR : Reg) (off6 : BitVec 6) (s : State) (ea : Word), s.reg baseR + sext off6 = ea → ∃ t,
    exec (.str sr baseR off6) s = .next t ∧ t.rawRead ea = s.reg sr ∧ (∀ a, a ≠ ea → t.rawRead a = s.rawRead a) ∧
    s.sameBytesBut t [ea] ∧ t = { s with mem := t.mem }

/-- 42_load_store.md R145: the store follows the pointer read, also where that read polled. The opcode number in the first
clause is decision D2 (log entry 5: PRESUMED). The poll is decisions D8 and D9 (log entries 8, 9), the plain store to a device
cell D17 (log entry 20). -/
def Obligations.StiStoresIndirect : Prop :=
  (∀ w : Word, w &&& 0xF000#16 = 0xB000#16 →
    decodeWord w = .sti (Reg.ofBits (w.extractLsb 11 9)) (w.extractLsb 8 0)) ∧
  ∀ (sr : Reg) (off9 : BitVec 9) (s m : State) (p : Word), s.memRead (s.pc + sext off9) = (p, m) → ∃ t,
    exec (.sti sr off9) s = .next t ∧ p = s.wordAfterRead (s.pc + sext off9) (s.pc + sext off9) ∧
    s.readLeaves m (s.pc + sext off9) ∧ t.rawRead p = s.reg sr ∧ (∀ a, a ≠ p → t.rawRead a = m.rawRead a) ∧
    m.sameBytesBut t [p] ∧
    t = { s with mem := t.mem, keyboard := m.keyboard, draws := m.draws }

/-- 43_trap.md R171. Holds for every value of the free draw Config.keyDraw (log entry 11); waits in the list are passed over
(log entry 10). The opcode number in the first clause is decision D2 (log entry 5: PRESUMED). -/
def Obligations.GetcReadsAKey : Prop :=
  (∀ w : Word, w &&& 0xF0FF#16 = 0xF020#16 → decodeWord w = .getc) ∧
  (∀ (s : State) (n : Nat) (c : Byte) (rest : List (Option Byte)),
    s.keyboard = List.replicate n none ++ some c :: rest → ∃ t,
      exec .getc s = .next t ∧ t.reg .r0 = c.zeroExtend 16 ∧ s.sameRegsBut t .r0 ∧
      t = { s with regs := t.regs, keyboard := rest }) ∧
  ∀ s : State, (∀ k ∈ s.keyboard, k = none) →
    match Config.keyDraw s.draws with
    | some c => ∃ t, exec .getc s = .next t ∧ t.reg .r0 = c.zeroExtend 16 ∧ s.sameRegsBut t .r0 ∧
        t = { s with regs := t.regs, keyboard := [], draws := s.draws + 1 }
    | none => exec .getc s = .fault .waitingForKey

/-- 43_trap.md R172. The opcode number in the first clause is decision D2 (log entry 5: PRESUMED). -/
def Obligations.OutWritesLowByte : Prop :=
  (∀ w : Word, w &&& 0xF0FF#16 = 0xF021#16 → decodeWord w = .out) ∧
  ∀ s : State, exec .out s = .next { s with out := s.out ++ [(s.reg .r0).extractLsb 7 0] }

/-- 43_trap.md, PUTS. The raw reads are decision D11 (log entry 14) and the abort decision D12 (log entry 15). The opcode
number in the first clause is decision D2 (log entry 5: PRESUMED). -/
def Obligations.PutsWritesString : Prop :=
  (∀ w : Word, w &&& 0xF0FF#16 = 0xF022#16 → decodeWord w = .puts) ∧
  (∀ (s : State) (ws : List Word), (∀ w ∈ ws, w ≠ 0x0000#16) → s.stringIs ws →
    (s.stringEnd ws < 65536 → s.wordAfterString ws = 0x0000#16 →
      exec .puts s = .next { s with out := s.out ++ ws.map (fun w => w.extractLsb 7 0) }) ∧
    (s.stringEnd ws = 65536 →
      exec .puts s =
        .next { s with out := s.out ++ ws.map (fun w => w.extractLsb 7 0), run := .aborted .stringPastEnd })) ∧
  ∀ s : State, ∃ ws : List Word, (∀ w ∈ ws, w ≠ 0x0000#16) ∧ s.stringIs ws ∧
    (s.stringEnd ws = 65536 ∨ (s.stringEnd ws < 65536 ∧ s.wordAfterString ws = 0x0000#16))

/-- 43_trap.md, IN. The prompt is the OPEN parameter IN_PROMPT (D14; log entry 17), the order decision D22 (log entry 26), the
free draw log entry 11. The opcode number in the first clause is decision D2 (log entry 5: PRESUMED). -/
def Obligations.InPromptsAndEchoes : Prop :=
  (∀ w : Word, w &&& 0xF0FF#16 = 0xF023#16 → decodeWord w = .inKey) ∧
  (∀ (s : State) (n : Nat) (c : Byte) (rest : List (Option Byte)),
    s.keyboard = List.replicate n none ++ some c :: rest → ∃ t,
      exec .inKey s = .next t ∧ t.reg .r0 = c.zeroExtend 16 ∧ s.sameRegsBut t .r0 ∧
      t = { s with regs := t.regs, out := s.out ++ Config.inPrompt ++ [c], keyboard := rest }) ∧
  ∀ s : State, (∀ k ∈ s.keyboard, k = none) →
    match Config.keyDraw s.draws with
    | some c => ∃ t, exec .inKey s = .next t ∧ t.reg .r0 = c.zeroExtend 16 ∧ s.sameRegsBut t .r0 ∧
        t = { s with regs := t.regs, out := s.out ++ Config.inPrompt ++ [c], keyboard := [], draws := s.draws + 1 }
    | none => exec .inKey s = .fault .waitingForKey

/-- 43_trap.md, PUTSP with the default Logical of its second character, decision D13 (log entry 16). Raw reads are D11 (log
entry 14), the abort D12 (log entry 15). The opcode number in the first clause is decision D2 (log entry 5: PRESUMED). -/
def Obligations.PutspWritesPackedString : Prop :=
  (∀ w : Word, w &&& 0xF0FF#16 = 0xF024#16 → decodeWord w = .putsp) ∧
  (∀ (s : State) (ws : List Word), s.putspHighByte = .logical → (∀ w ∈ ws, w.extractLsb 15 8 ≠ 0x00#8) → s.stringIs ws →
    (s.stringEnd ws < 65536 → s.wordAfterString ws = 0x0000#16 →
      exec .putsp s = .next { s with out := s.out ++ ws.flatMap (packedChars .logical) }) ∧
    (s.stringEnd ws < 65536 → s.wordAfterString ws ≠ 0x0000#16 → (s.wordAfterString ws).extractLsb 15 8 = 0x00#8 →
      exec .putsp s =
        .next { s with out := s.out ++ ws.flatMap (packedChars .logical) ++ [(s.wordAfterString ws).extractLsb 7 0] }) ∧
    (s.stringEnd ws = 65536 →
      exec .putsp s =
        .next { s with out := s.out ++ ws.flatMap (packedChars .logical), run := .aborted .stringPastEnd })) ∧
  ∀ s : State, ∃ ws : List Word, (∀ w ∈ ws, w.extractLsb 15 8 ≠ 0x00#8) ∧ s.stringIs ws ∧
    (s.stringEnd ws = 65536 ∨ (s.stringEnd ws < 65536 ∧ (s.wordAfterString ws).extractLsb 15 8 = 0x00#8))

/-- 00_scope.md section 3 and 43_trap.md, the second character of PUTSP: the parameter PUTSP_HIGH_BYTE at its other value
(decision D13; log entry 16). Raw reads are D11 (log entry 14), the abort D12 (log entry 15). -/
def Obligations.PutspByteReading : Prop :=
  (∀ (s : State) (ws : List Word), s.putspHighByte = .byte → (∀ w ∈ ws, w.extractLsb 15 8 ≠ 0x00#8) → s.stringIs ws →
    (s.stringEnd ws < 65536 → s.wordAfterString ws = 0x0000#16 →
      exec .putsp s = .next { s with out := s.out ++ ws.flatMap (packedChars .byte) }) ∧
    (s.stringEnd ws < 65536 → s.wordAfterString ws ≠ 0x0000#16 → (s.wordAfterString ws).extractLsb 15 8 = 0x00#8 →
      exec .putsp s =
        .next { s with out := s.out ++ ws.flatMap (packedChars .byte) ++ [(s.wordAfterString ws).extractLsb 7 0] }) ∧
    (s.stringEnd ws = 65536 →
      exec .putsp s =
        .next { s with out := s.out ++ ws.flatMap (packedChars .byte), run := .aborted .stringPastEnd })) ∧
  (∀ (s : State) (ws : List Word), (∀ w ∈ ws, w.extractLsb 15 8 = 0x01#8) → s.stringIs ws →
    (s.stringEnd ws = 65536 ∨ (s.stringEnd ws < 65536 ∧ (s.wordAfterString ws).extractLsb 15 8 = 0x00#8)) →
    ∃ t, exec .putsp (s.withPutspHighByte .byte) = .next t ∧
      exec .putsp (s.withPutspHighByte .logical) = .next (t.withPutspHighByte .logical)) ∧
  (∀ (i : Instr) (s t : State), exec i s = .next t → t.putspHighByte = s.putspHighByte) ∧
  ∀ s t : State, step s = .next t → t.putspHighByte = s.putspHighByte

/-- 43_trap.md, HALT. The message is the OPEN parameter HALT_MESSAGE (D15; log entry 18). The opcode number in the first
clause is decision D2 (log entry 5: PRESUMED). -/
def Obligations.HaltHalts : Prop :=
  (∀ w : Word, w &&& 0xF0FF#16 = 0xF025#16 → decodeWord w = .halt) ∧
  ∀ s : State, exec .halt s = .next { s with out := s.out ++ Config.haltMessage, run := .halted }

/-- 43_trap.md, the dispatch. That bits 11..8 are ignored is decision D7 (log entry 7). The opcode number in the first clause
is decision D2 (log entry 5: PRESUMED). -/
def Obligations.TrapDispatchesOnVector : Prop :=
  (∀ w : Word, w &&& 0xF000#16 = 0xF000#16 →
    ¬ (0x20 ≤ (w.extractLsb 7 0).toNat ∧ (w.extractLsb 7 0).toNat ≤ 0x25) → decodeWord w = .trap (w.extractLsb 7 0)) ∧
  ∀ (vec : BitVec 8) (s : State),
    (vec.toNat = 0x20 → exec (.trap vec) s = exec .getc s) ∧ (vec.toNat = 0x21 → exec (.trap vec) s = exec .out s) ∧
    (vec.toNat = 0x22 → exec (.trap vec) s = exec .puts s) ∧ (vec.toNat = 0x23 → exec (.trap vec) s = exec .inKey s) ∧
    (vec.toNat = 0x24 → exec (.trap vec) s = exec .putsp s) ∧ (vec.toNat = 0x25 → exec (.trap vec) s = exec .halt s) ∧
    (¬ (0x20 ≤ vec.toNat ∧ vec.toNat ≤ 0x25) → exec (.trap vec) s = .next s)

/-- 43_trap.md R177: "execution continues with no state change". The opcode number in the second clause is decision D2 (log
entry 5: PRESUMED). -/
def Obligations.UnknownVectorIsNoOp : Prop :=
  (∀ (vec : BitVec 8) (s : State), (vec.toNat < 0x20 ∨ 0x25 < vec.toNat) → exec (.trap vec) s = .next s) ∧
  ∀ (s : State) (w : Word), s.run = .running → s.pc ≠ 0xFE00#16 → s.rawRead s.pc = w →
    w &&& 0xF000#16 = 0xF000#16 → ((w.extractLsb 7 0).toNat < 0x20 ∨ 0x25 < (w.extractLsb 7 0).toNat) →
    step s = .next { s with pc := s.pc + 1#16 }

/-- 43_trap.md R178. The last two clauses say that no vector table is read: the rows that walk no string do the same whatever
memory holds, and no row looks below the address in R0, so nothing in memory selects or moves the service. That a walk never
wraps below its start is decision D12 (log entry 15), that it polls nothing and so writes no memory D11 (log entry 14), and
that GETC and IN leave COND D16 (log entry 19: DESIGN CHOICE). -/
def Obligations.TrapLeavesLinkPcAndCond : Prop :=
  (∀ (i : Instr) (s t : State), i.isTrap = true → exec i s = .next t →
    t.reg .r7 = s.reg .r7 ∧ s.sameRegsBut t .r0 ∧ t.pc = s.pc ∧ t.cond = s.cond ∧ t.mem = s.mem) ∧
  (∀ (i : Instr) (s : State) (m : Memory), i.isTrap = true → i ≠ .puts → i ≠ .putsp →
    i ≠ .trap 0x22#8 → i ≠ .trap 0x24#8 →
    sameOutcome (fun t u => u = { t with mem := m }) (exec i s) (exec i { s with mem := m })) ∧
  ∀ (i : Instr) (s : State) (m : Memory), i.isTrap = true →
    (∀ a : Word, (s.reg .r0).toNat ≤ a.toNat → m.readWord a = s.rawRead a) →
    sameOutcome (fun t u => u = { t with mem := m }) (exec i s) (exec i { s with mem := m })

/-- 44_unimplemented.md R200, with its corner case of a fetch from 0xFE00. A poll that reads as 0x8000 is decision D8 (log
entry 8), the fetch through the hook D10 (log entry 13). -/
def Obligations.RtiAborts : Prop :=
  (∀ w : Word, w &&& 0xF000#16 = 0x8000#16 → decodeWord w = .rti) ∧
  (∀ s : State, exec .rti s = .next { s with run := .aborted (.fatalOpcode .rti) }) ∧
  ∀ (s : State) (c : Byte) (rest : List (Option Byte)), s.run = .running → s.pc = 0xFE00#16 →
    s.keyboard = some c :: rest →
    ∃ t, step s = .next t ∧ t.run = .aborted (.fatalOpcode .rti) ∧ t.pc = 0xFE01#16

/-- 44_unimplemented.md, RES. Its opcode value is decision D2 (log entry 5: PRESUMED). -/
def Obligations.ResAborts : Prop :=
  (∀ w : Word, w &&& 0xF000#16 = 0xD000#16 → decodeWord w = .res) ∧
  ∀ s : State, exec .res s = .next { s with run := .aborted (.fatalOpcode .res) }

/-- 70_reset_and_hazards.md section 2: the Loader algorithm and "pc stays 0x3000 whatever the image's origin". The ignored odd
byte is decision D20 (log entry 22). -/
def Obligations.LoaderInstallsTheImage : Prop :=
  ∀ (s : State) (origin : Word) (ws : List Word) (odd : List Byte), odd.length ≤ 1 → ∃ t,
    s.load (imageOf (origin :: ws) ++ odd) = some t ∧
    (∀ (k : Nat) (w : Word), ws[k]? = some w → origin.toNat + k < 65536 →
      t.rawRead (BitVec.ofNat 16 (origin.toNat + k)) = w) ∧
    (∀ a : Word, (a.toNat < origin.toNat ∨ origin.toNat + ws.length ≤ a.toNat) → t.rawRead a = s.rawRead a) ∧
    t = { s with mem := t.mem }

/-- 70_reset_and_hazards.md R243. -/
def Obligations.LoaderTruncates : Prop :=
  ∀ (s : State) (origin : Word) (ws : List Word), ∃ t,
    s.load (imageOf (origin :: ws)) = some t ∧
    s.load (imageOf (origin :: ws.take (65536 - origin.toNat))) = some t ∧
    (∀ (k : Nat) (w : Word), (ws.take (65536 - origin.toNat))[k]? = some w →
      t.rawRead (BitVec.ofNat 16 (origin.toNat + k)) = w) ∧
    ∀ a : Word, a.toNat < origin.toNat → t.rawRead a = s.rawRead a

/-- 70_reset_and_hazards.md section 2, the degenerate images (decision D20; log entry 22). -/
def Obligations.LoaderDegenerateImages : Prop :=
  boot [] = none ∧ (∀ b : Byte, boot [b] = none) ∧ (∀ hi lo : Byte, boot [hi, lo] = some State.reset) ∧
  ∀ hi lo b : Byte, boot [hi, lo, b] = some State.reset
end

