-- ==== Sys2Proof/Laws/Encoding.lean ====
section
/-! SUPPORT. The fields of the eleven formats: what each field of a formatted word reads as, and what is left of a formatted word
under its row's mask (30_encoding.md R73; spec/opcode_table.json). -/

namespace Sys2Proof

@[simp] theorem opcode_ofBits_bits (o : Opcode) : Opcode.ofBits o.bits = o := by cases o <;> rfl
@[simp] theorem opcode_bits_ofBits : ∀ b : BitVec 4, (Opcode.ofBits b).bits = b := by decide
@[simp] theorem reg_ofBits_bits (r : Reg) : Reg.ofBits r.bits = r := by cases r <;> rfl
@[simp] theorem reg_bits_ofBits : ∀ b : BitVec 3, (Reg.ofBits b).bits = b := by decide

theorem opcode_and_ones : ∀ b : BitVec 4, b &&& 0b1111#4 = b := by decide

/-! ## Format OPR -/

@[simp] theorem formatOpr_op (op : Opcode) (dr sr1 sr2 : Reg) : (formatOpr op dr sr1 sr2).extractLsb 15 12 = op.bits := by
  unfold formatOpr
  show BitVec.extractLsb' 12 4 _ = _
  simp (disch := decide) only [BitVec.extractLsb'_append_eq_of_le]
  simp

@[simp] theorem formatOpr_dr (op : Opcode) (dr sr1 sr2 : Reg) : (formatOpr op dr sr1 sr2).extractLsb 11 9 = dr.bits := by
  unfold formatOpr
  show BitVec.extractLsb' 9 3 _ = _
  simp (disch := decide) only [BitVec.extractLsb'_append_eq_of_le, BitVec.extractLsb'_append_eq_of_add_le]
  simp

@[simp] theorem formatOpr_sr1 (op : Opcode) (dr sr1 sr2 : Reg) : (formatOpr op dr sr1 sr2).extractLsb 8 6 = sr1.bits := by
  unfold formatOpr
  show BitVec.extractLsb' 6 3 _ = _
  simp (disch := decide) only [BitVec.extractLsb'_append_eq_of_le, BitVec.extractLsb'_append_eq_of_add_le]
  simp

@[simp] theorem formatOpr_sr2 (op : Opcode) (dr sr1 sr2 : Reg) : (formatOpr op dr sr1 sr2).extractLsb 2 0 = sr2.bits := by
  unfold formatOpr
  show BitVec.extractLsb' 0 3 _ = _
  simp (disch := decide) only [BitVec.extractLsb'_append_eq_of_add_le]
  simp

@[simp] theorem formatOpr_bit5 (op : Opcode) (dr sr1 sr2 : Reg) : (formatOpr op dr sr1 sr2)[5] = false := by
  have h : BitVec.extractLsb' 5 1 (formatOpr op dr sr1 sr2) = 0b0#1 := by
    unfold formatOpr
    simp (disch := decide) only [BitVec.extractLsb'_append_eq_of_le, BitVec.extractLsb'_append_eq_of_add_le]
    simp
  simpa using congrArg (fun b : BitVec 1 => b[0]) h

/-- What the row's mask 0xF020 leaves. -/
theorem formatOpr_and_mask (op : Opcode) (dr sr1 sr2 : Reg) :
    formatOpr op dr sr1 sr2 &&& 0xF020#16 = (op.bits ++ 0b000#3 ++ 0b000#3 ++ 0b0#1 ++ 0b00#2 ++ 0b000#3 : Word) := by
  show (op.bits ++ dr.bits ++ sr1.bits ++ 0b0#1 ++ 0b00#2 ++ sr2.bits : BitVec (4 + 3 + 3 + 1 + 2 + 3)) &&&
    (0b1111#4 ++ 0b000#3 ++ 0b000#3 ++ 0b1#1 ++ 0b00#2 ++ 0b000#3 : BitVec (4 + 3 + 3 + 1 + 2 + 3)) = (op.bits ++ 0b000#3 ++ 0b000#3 ++ 0b0#1 ++ 0b00#2 ++ 0b000#3 : BitVec (4 + 3 + 3 + 1 + 2 + 3))
  simp only [BitVec.and_append, opcode_and_ones]
  simp

/-! ## Format OPI -/

@[simp] theorem formatOpi_op (op : Opcode) (dr sr1 : Reg) (imm5 : BitVec 5) : (formatOpi op dr sr1 imm5).extractLsb 15 12 = op.bits := by
  unfold formatOpi
  show BitVec.extractLsb' 12 4 _ = _
  simp (disch := decide) only [BitVec.extractLsb'_append_eq_of_le]
  simp

@[simp] theorem formatOpi_dr (op : Opcode) (dr sr1 : Reg) (imm5 : BitVec 5) : (formatOpi op dr sr1 imm5).extractLsb 11 9 = dr.bits := by
  unfold formatOpi
  show BitVec.extractLsb' 9 3 _ = _
  simp (disch := decide) only [BitVec.extractLsb'_append_eq_of_le, BitVec.extractLsb'_append_eq_of_add_le]
  simp

@[simp] theorem formatOpi_sr1 (op : Opcode) (dr sr1 : Reg) (imm5 : BitVec 5) : (formatOpi op dr sr1 imm5).extractLsb 8 6 = sr1.bits := by
  unfold formatOpi
  show BitVec.extractLsb' 6 3 _ = _
  simp (disch := decide) only [BitVec.extractLsb'_append_eq_of_le, BitVec.extractLsb'_append_eq_of_add_le]
  simp

@[simp] theorem formatOpi_imm5 (op : Opcode) (dr sr1 : Reg) (imm5 : BitVec 5) : (formatOpi op dr sr1 imm5).extractLsb 4 0 = imm5 := by
  unfold formatOpi
  show BitVec.extractLsb' 0 5 _ = _
  simp (disch := decide) only [BitVec.extractLsb'_append_eq_of_add_le]
  simp

@[simp] theorem formatOpi_bit5 (op : Opcode) (dr sr1 : Reg) (imm5 : BitVec 5) : (formatOpi op dr sr1 imm5)[5] = true := by
  have h : BitVec.extractLsb' 5 1 (formatOpi op dr sr1 imm5) = 0b1#1 := by
    unfold formatOpi
    simp (disch := decide) only [BitVec.extractLsb'_append_eq_of_le, BitVec.extractLsb'_append_eq_of_add_le]
    simp
  simpa using congrArg (fun b : BitVec 1 => b[0]) h

/-- What the row's mask 0xF020 leaves. -/
theorem formatOpi_and_mask (op : Opcode) (dr sr1 : Reg) (imm5 : BitVec 5) :
    formatOpi op dr sr1 imm5 &&& 0xF020#16 = (op.bits ++ 0b000#3 ++ 0b000#3 ++ 0b1#1 ++ 0b00000#5 : Word) := by
  show (op.bits ++ dr.bits ++ sr1.bits ++ 0b1#1 ++ imm5 : BitVec (4 + 3 + 3 + 1 + 5)) &&&
    (0b1111#4 ++ 0b000#3 ++ 0b000#3 ++ 0b1#1 ++ 0b00000#5 : BitVec (4 + 3 + 3 + 1 + 5)) = (op.bits ++ 0b000#3 ++ 0b000#3 ++ 0b1#1 ++ 0b00000#5 : BitVec (4 + 3 + 3 + 1 + 5))
  simp only [BitVec.and_append, opcode_and_ones]
  simp

/-! ## Format NOTF -/

@[simp] theorem formatNotf_op (op : Opcode) (dr sr : Reg) : (formatNotf op dr sr).extractLsb 15 12 = op.bits := by
  unfold formatNotf
  show BitVec.extractLsb' 12 4 _ = _
  simp (disch := decide) only [BitVec.extractLsb'_append_eq_of_le]
  simp

@[simp] theorem formatNotf_dr (op : Opcode) (dr sr : Reg) : (formatNotf op dr sr).extractLsb 11 9 = dr.bits := by
  unfold formatNotf
  show BitVec.extractLsb' 9 3 _ = _
  simp (disch := decide) only [BitVec.extractLsb'_append_eq_of_le, BitVec.extractLsb'_append_eq_of_add_le]
  simp

@[simp] theorem formatNotf_sr (op : Opcode) (dr sr : Reg) : (formatNotf op dr sr).extractLsb 8 6 = sr.bits := by
  unfold formatNotf
  show BitVec.extractLsb' 6 3 _ = _
  simp (disch := decide) only [BitVec.extractLsb'_append_eq_of_le, BitVec.extractLsb'_append_eq_of_add_le]
  simp

/-- What the row's mask 0xF000 leaves. -/
theorem formatNotf_and_mask (op : Opcode) (dr sr : Reg) :
    formatNotf op dr sr &&& 0xF000#16 = (op.bits ++ 0b000#3 ++ 0b000#3 ++ 0b000000#6 : Word) := by
  show (op.bits ++ dr.bits ++ sr.bits ++ 0b111111#6 : BitVec (4 + 3 + 3 + 6)) &&&
    (0b1111#4 ++ 0b000#3 ++ 0b000#3 ++ 0b000000#6 : BitVec (4 + 3 + 3 + 6)) = (op.bits ++ 0b000#3 ++ 0b000#3 ++ 0b000000#6 : BitVec (4 + 3 + 3 + 6))
  simp only [BitVec.and_append, opcode_and_ones]
  simp

/-! ## Format BRF -/

@[simp] theorem formatBrf_op (op : Opcode) (nzp : BitVec 3) (off9 : BitVec 9) : (formatBrf op nzp off9).extractLsb 15 12 = op.bits := by
  unfold formatBrf
  show BitVec.extractLsb' 12 4 _ = _
  simp (disch := decide) only [BitVec.extractLsb'_append_eq_of_le]
  simp

@[simp] theorem formatBrf_nzp (op : Opcode) (nzp : BitVec 3) (off9 : BitVec 9) : (formatBrf op nzp off9).extractLsb 11 9 = nzp := by
  unfold formatBrf
  show BitVec.extractLsb' 9 3 _ = _
  simp (disch := decide) only [BitVec.extractLsb'_append_eq_of_le, BitVec.extractLsb'_append_eq_of_add_le]
  simp

@[simp] theorem formatBrf_off9 (op : Opcode) (nzp : BitVec 3) (off9 : BitVec 9) : (formatBrf op nzp off9).extractLsb 8 0 = off9 := by
  unfold formatBrf
  show BitVec.extractLsb' 0 9 _ = _
  simp (disch := decide) only [BitVec.extractLsb'_append_eq_of_add_le]
  simp

/-- What the row's mask 0xF000 leaves. -/
theorem formatBrf_and_mask (op : Opcode) (nzp : BitVec 3) (off9 : BitVec 9) :
    formatBrf op nzp off9 &&& 0xF000#16 = (op.bits ++ 0b000#3 ++ 0b000000000#9 : Word) := by
  show (op.bits ++ nzp ++ off9 : BitVec (4 + 3 + 9)) &&&
    (0b1111#4 ++ 0b000#3 ++ 0b000000000#9 : BitVec (4 + 3 + 9)) = (op.bits ++ 0b000#3 ++ 0b000000000#9 : BitVec (4 + 3 + 9))
  simp only [BitVec.and_append, opcode_and_ones]
  simp

/-! ## Format PCR -/

@[simp] theorem formatPcr_op (op : Opcode) (r : Reg) (off9 : BitVec 9) : (formatPcr op r off9).extractLsb 15 12 = op.bits := by
  unfold formatPcr
  show BitVec.extractLsb' 12 4 _ = _
  simp (disch := decide) only [BitVec.extractLsb'_append_eq_of_le]
  simp

@[simp] theorem formatPcr_r (op : Opcode) (r : Reg) (off9 : BitVec 9) : (formatPcr op r off9).extractLsb 11 9 = r.bits := by
  unfold formatPcr
  show BitVec.extractLsb' 9 3 _ = _
  simp (disch := decide) only [BitVec.extractLsb'_append_eq_of_le, BitVec.extractLsb'_append_eq_of_add_le]
  simp

@[simp] theorem formatPcr_off9 (op : Opcode) (r : Reg) (off9 : BitVec 9) : (formatPcr op r off9).extractLsb 8 0 = off9 := by
  unfold formatPcr
  show BitVec.extractLsb' 0 9 _ = _
  simp (disch := decide) only [BitVec.extractLsb'_append_eq_of_add_le]
  simp

/-- What the row's mask 0xF000 leaves. -/
theorem formatPcr_and_mask (op : Opcode) (r : Reg) (off9 : BitVec 9) :
    formatPcr op r off9 &&& 0xF000#16 = (op.bits ++ 0b000#3 ++ 0b000000000#9 : Word) := by
  show (op.bits ++ r.bits ++ off9 : BitVec (4 + 3 + 9)) &&&
    (0b1111#4 ++ 0b000#3 ++ 0b000000000#9 : BitVec (4 + 3 + 9)) = (op.bits ++ 0b000#3 ++ 0b000000000#9 : BitVec (4 + 3 + 9))
  simp only [BitVec.and_append, opcode_and_ones]
  simp

/-! ## Format BASE -/

@[simp] theorem formatBase_op (op : Opcode) (r baseR : Reg) (off6 : BitVec 6) : (formatBase op r baseR off6).extractLsb 15 12 = op.bits := by
  unfold formatBase
  show BitVec.extractLsb' 12 4 _ = _
  simp (disch := decide) only [BitVec.extractLsb'_append_eq_of_le]
  simp

@[simp] theorem formatBase_r (op : Opcode) (r baseR : Reg) (off6 : BitVec 6) : (formatBase op r baseR off6).extractLsb 11 9 = r.bits := by
  unfold formatBase
  show BitVec.extractLsb' 9 3 _ = _
  simp (disch := decide) only [BitVec.extractLsb'_append_eq_of_le, BitVec.extractLsb'_append_eq_of_add_le]
  simp

@[simp] theorem formatBase_baseR (op : Opcode) (r baseR : Reg) (off6 : BitVec 6) : (formatBase op r baseR off6).extractLsb 8 6 = baseR.bits := by
  unfold formatBase
  show BitVec.extractLsb' 6 3 _ = _
  simp (disch := decide) only [BitVec.extractLsb'_append_eq_of_le, BitVec.extractLsb'_append_eq_of_add_le]
  simp

@[simp] theorem formatBase_off6 (op : Opcode) (r baseR : Reg) (off6 : BitVec 6) : (formatBase op r baseR off6).extractLsb 5 0 = off6 := by
  unfold formatBase
  show BitVec.extractLsb' 0 6 _ = _
  simp (disch := decide) only [BitVec.extractLsb'_append_eq_of_add_le]
  simp

/-- What the row's mask 0xF000 leaves. -/
theorem formatBase_and_mask (op : Opcode) (r baseR : Reg) (off6 : BitVec 6) :
    formatBase op r baseR off6 &&& 0xF000#16 = (op.bits ++ 0b000#3 ++ 0b000#3 ++ 0b000000#6 : Word) := by
  show (op.bits ++ r.bits ++ baseR.bits ++ off6 : BitVec (4 + 3 + 3 + 6)) &&&
    (0b1111#4 ++ 0b000#3 ++ 0b000#3 ++ 0b000000#6 : BitVec (4 + 3 + 3 + 6)) = (op.bits ++ 0b000#3 ++ 0b000#3 ++ 0b000000#6 : BitVec (4 + 3 + 3 + 6))
  simp only [BitVec.and_append, opcode_and_ones]
  simp

/-! ## Format JMPF -/

@[simp] theorem formatJmpf_op (op : Opcode) (baseR : Reg) : (formatJmpf op baseR).extractLsb 15 12 = op.bits := by
  unfold formatJmpf
  show BitVec.extractLsb' 12 4 _ = _
  simp (disch := decide) only [BitVec.extractLsb'_append_eq_of_le]
  simp

@[simp] theorem formatJmpf_baseR (op : Opcode) (baseR : Reg) : (formatJmpf op baseR).extractLsb 8 6 = baseR.bits := by
  unfold formatJmpf
  show BitVec.extractLsb' 6 3 _ = _
  simp (disch := decide) only [BitVec.extractLsb'_append_eq_of_le, BitVec.extractLsb'_append_eq_of_add_le]
  simp

/-- What the row's mask 0xF000 leaves. -/
theorem formatJmpf_and_mask (op : Opcode) (baseR : Reg) :
    formatJmpf op baseR &&& 0xF000#16 = (op.bits ++ 0b000#3 ++ 0b000#3 ++ 0b000000#6 : Word) := by
  show (op.bits ++ 0b000#3 ++ baseR.bits ++ 0b000000#6 : BitVec (4 + 3 + 3 + 6)) &&&
    (0b1111#4 ++ 0b000#3 ++ 0b000#3 ++ 0b000000#6 : BitVec (4 + 3 + 3 + 6)) = (op.bits ++ 0b000#3 ++ 0b000#3 ++ 0b000000#6 : BitVec (4 + 3 + 3 + 6))
  simp only [BitVec.and_append, opcode_and_ones]
  simp

/-! ## Format JSRF -/

@[simp] theorem formatJsrf_op (op : Opcode) (off11 : BitVec 11) : (formatJsrf op off11).extractLsb 15 12 = op.bits := by
  unfold formatJsrf
  show BitVec.extractLsb' 12 4 _ = _
  simp (disch := decide) only [BitVec.extractLsb'_append_eq_of_le]
  simp

@[simp] theorem formatJsrf_off11 (op : Opcode) (off11 : BitVec 11) : (formatJsrf op off11).extractLsb 10 0 = off11 := by
  unfold formatJsrf
  show BitVec.extractLsb' 0 11 _ = _
  simp (disch := decide) only [BitVec.extractLsb'_append_eq_of_add_le]
  simp

@[simp] theorem formatJsrf_bit11 (op : Opcode) (off11 : BitVec 11) : (formatJsrf op off11)[11] = true := by
  have h : BitVec.extractLsb' 11 1 (formatJsrf op off11) = 0b1#1 := by
    unfold formatJsrf
    simp (disch := decide) only [BitVec.extractLsb'_append_eq_of_le, BitVec.extractLsb'_append_eq_of_add_le]
    simp
  simpa using congrArg (fun b : BitVec 1 => b[0]) h

/-- What the row's mask 0xF800 leaves. -/
theorem formatJsrf_and_mask (op : Opcode) (off11 : BitVec 11) :
    formatJsrf op off11 &&& 0xF800#16 = (op.bits ++ 0b1#1 ++ 0b00000000000#11 : Word) := by
  show (op.bits ++ 0b1#1 ++ off11 : BitVec (4 + 1 + 11)) &&&
    (0b1111#4 ++ 0b1#1 ++ 0b00000000000#11 : BitVec (4 + 1 + 11)) = (op.bits ++ 0b1#1 ++ 0b00000000000#11 : BitVec (4 + 1 + 11))
  simp only [BitVec.and_append, opcode_and_ones]
  simp

/-! ## Format JSRRF -/

@[simp] theorem formatJsrrf_op (op : Opcode) (baseR : Reg) : (formatJsrrf op baseR).extractLsb 15 12 = op.bits := by
  unfold formatJsrrf
  show BitVec.extractLsb' 12 4 _ = _
  simp (disch := decide) only [BitVec.extractLsb'_append_eq_of_le]
  simp

@[simp] theorem formatJsrrf_baseR (op : Opcode) (baseR : Reg) : (formatJsrrf op baseR).extractLsb 8 6 = baseR.bits := by
  unfold formatJsrrf
  show BitVec.extractLsb' 6 3 _ = _
  simp (disch := decide) only [BitVec.extractLsb'_append_eq_of_le, BitVec.extractLsb'_append_eq_of_add_le]
  simp

@[simp] theorem formatJsrrf_bit11 (op : Opcode) (baseR : Reg) : (formatJsrrf op baseR)[11] = false := by
  have h : BitVec.extractLsb' 11 1 (formatJsrrf op baseR) = 0b0#1 := by
    unfold formatJsrrf
    simp (disch := decide) only [BitVec.extractLsb'_append_eq_of_le, BitVec.extractLsb'_append_eq_of_add_le]
    simp
  simpa using congrArg (fun b : BitVec 1 => b[0]) h

/-- What the row's mask 0xF800 leaves. -/
theorem formatJsrrf_and_mask (op : Opcode) (baseR : Reg) :
    formatJsrrf op baseR &&& 0xF800#16 = (op.bits ++ 0b0#1 ++ 0b00#2 ++ 0b000#3 ++ 0b000000#6 : Word) := by
  show (op.bits ++ 0b0#1 ++ 0b00#2 ++ baseR.bits ++ 0b000000#6 : BitVec (4 + 1 + 2 + 3 + 6)) &&&
    (0b1111#4 ++ 0b1#1 ++ 0b00#2 ++ 0b000#3 ++ 0b000000#6 : BitVec (4 + 1 + 2 + 3 + 6)) = (op.bits ++ 0b0#1 ++ 0b00#2 ++ 0b000#3 ++ 0b000000#6 : BitVec (4 + 1 + 2 + 3 + 6))
  simp only [BitVec.and_append, opcode_and_ones]
  simp

/-! ## Format TRAPF -/

@[simp] theorem formatTrapf_op (op : Opcode) (vec : BitVec 8) : (formatTrapf op vec).extractLsb 15 12 = op.bits := by
  unfold formatTrapf
  show BitVec.extractLsb' 12 4 _ = _
  simp (disch := decide) only [BitVec.extractLsb'_append_eq_of_le]
  simp

@[simp] theorem formatTrapf_vec (op : Opcode) (vec : BitVec 8) : (formatTrapf op vec).extractLsb 7 0 = vec := by
  unfold formatTrapf
  show BitVec.extractLsb' 0 8 _ = _
  simp (disch := decide) only [BitVec.extractLsb'_append_eq_of_add_le]
  simp

/-- What the row's mask 0xF000 leaves. -/
theorem formatTrapf_and_mask (op : Opcode) (vec : BitVec 8) :
    formatTrapf op vec &&& 0xF000#16 = (op.bits ++ 0b0000#4 ++ 0b00000000#8 : Word) := by
  show (op.bits ++ 0b0000#4 ++ vec : BitVec (4 + 4 + 8)) &&&
    (0b1111#4 ++ 0b0000#4 ++ 0b00000000#8 : BitVec (4 + 4 + 8)) = (op.bits ++ 0b0000#4 ++ 0b00000000#8 : BitVec (4 + 4 + 8))
  simp only [BitVec.and_append, opcode_and_ones]
  simp

/-! ## Format NONE -/

@[simp] theorem formatNone_op (op : Opcode) : (formatNone op).extractLsb 15 12 = op.bits := by
  unfold formatNone
  show BitVec.extractLsb' 12 4 _ = _
  simp (disch := decide) only [BitVec.extractLsb'_append_eq_of_le]
  simp

/-- What the row's mask 0xF000 leaves. -/
theorem formatNone_and_mask (op : Opcode) :
    formatNone op &&& 0xF000#16 = (op.bits ++ 0b000000000000#12 : Word) := by
  show (op.bits ++ 0b000000000000#12 : BitVec (4 + 12)) &&&
    (0b1111#4 ++ 0b000000000000#12 : BitVec (4 + 12)) = (op.bits ++ 0b000000000000#12 : BitVec (4 + 12))
  simp only [BitVec.and_append, opcode_and_ones]
  simp

/-! ## A word as the fields of a format -/

/-- The opcode of a word that matches under a mask that keeps the opcode. -/
theorem opcode_of_mask {w m v : Word} (h : w &&& m = v) (hm : m.extractLsb 15 12 = 0b1111#4) :
    w.extractLsb 15 12 = v.extractLsb 15 12 := by
  have h' := congrArg (BitVec.extractLsb 15 12) h
  rw [BitVec.extractLsb_and, hm, opcode_and_ones] at h'
  exact h'

/-- A word split at the borders of format OPR. -/
theorem word_splitOpr (w : Word) :
    w = (w.extractLsb 15 12 ++ w.extractLsb 11 9 ++ w.extractLsb 8 6 ++ w.extractLsb 5 5 ++ w.extractLsb 4 3 ++ w.extractLsb 2 0 :
      BitVec (4 + 3 + 3 + 1 + 2 + 3)) := by
  apply BitVec.eq_of_getLsbD_eq
  intro i hi
  simp only [BitVec.getLsbD_append, BitVec.extractLsb, BitVec.getLsbD_extractLsb']
  interval_cases i <;> simp

/-- A word split at the borders of format OPI. -/
theorem word_splitOpi (w : Word) :
    w = (w.extractLsb 15 12 ++ w.extractLsb 11 9 ++ w.extractLsb 8 6 ++ w.extractLsb 5 5 ++ w.extractLsb 4 0 :
      BitVec (4 + 3 + 3 + 1 + 5)) := by
  apply BitVec.eq_of_getLsbD_eq
  intro i hi
  simp only [BitVec.getLsbD_append, BitVec.extractLsb, BitVec.getLsbD_extractLsb']
  interval_cases i <;> simp

/-- A word split at the borders of format BASE. -/
theorem word_splitBase (w : Word) :
    w = (w.extractLsb 15 12 ++ w.extractLsb 11 9 ++ w.extractLsb 8 6 ++ w.extractLsb 5 0 :
      BitVec (4 + 3 + 3 + 6)) := by
  apply BitVec.eq_of_getLsbD_eq
  intro i hi
  simp only [BitVec.getLsbD_append, BitVec.extractLsb, BitVec.getLsbD_extractLsb']
  interval_cases i <;> simp

/-- A word split at the borders of format PCR. -/
theorem word_splitPcr (w : Word) :
    w = (w.extractLsb 15 12 ++ w.extractLsb 11 9 ++ w.extractLsb 8 0 :
      BitVec (4 + 3 + 9)) := by
  apply BitVec.eq_of_getLsbD_eq
  intro i hi
  simp only [BitVec.getLsbD_append, BitVec.extractLsb, BitVec.getLsbD_extractLsb']
  interval_cases i <;> simp

/-- A word split at the borders of format JSRF. -/
theorem word_splitJsrf (w : Word) :
    w = (w.extractLsb 15 12 ++ w.extractLsb 11 11 ++ w.extractLsb 10 0 :
      BitVec (4 + 1 + 11)) := by
  apply BitVec.eq_of_getLsbD_eq
  intro i hi
  simp only [BitVec.getLsbD_append, BitVec.extractLsb, BitVec.getLsbD_extractLsb']
  interval_cases i <;> simp

/-- A word split at the borders of format JSRRF. -/
theorem word_splitJsrrf (w : Word) :
    w = (w.extractLsb 15 12 ++ w.extractLsb 11 11 ++ w.extractLsb 10 9 ++ w.extractLsb 8 6 ++ w.extractLsb 5 0 :
      BitVec (4 + 1 + 2 + 3 + 6)) := by
  apply BitVec.eq_of_getLsbD_eq
  intro i hi
  simp only [BitVec.getLsbD_append, BitVec.extractLsb, BitVec.getLsbD_extractLsb']
  interval_cases i <;> simp

/-- A word split at the borders of format TRAPF. -/
theorem word_splitTrapf (w : Word) :
    w = (w.extractLsb 15 12 ++ w.extractLsb 11 8 ++ w.extractLsb 7 0 :
      BitVec (4 + 4 + 8)) := by
  apply BitVec.eq_of_getLsbD_eq
  intro i hi
  simp only [BitVec.getLsbD_append, BitVec.extractLsb, BitVec.getLsbD_extractLsb']
  interval_cases i <;> simp

/-- A word split at the borders of format NONE. -/
theorem word_splitNone (w : Word) :
    w = (w.extractLsb 15 12 ++ w.extractLsb 11 0 :
      BitVec (4 + 12)) := by
  apply BitVec.eq_of_getLsbD_eq
  intro i hi
  simp only [BitVec.getLsbD_append, BitVec.extractLsb, BitVec.getLsbD_extractLsb']
  interval_cases i <;> simp

/-! ## A word under the masks of the table -/

theorem word_and_F000 (w : Word) :
    w &&& 0xF000#16 = (w.extractLsb 15 12 ++ 0#12 : BitVec (4 + 12)) := by
  apply BitVec.eq_of_getLsbD_eq
  intro i hi
  simp only [BitVec.getLsbD_and, BitVec.getLsbD_append, BitVec.extractLsb, BitVec.getLsbD_extractLsb']
  interval_cases i <;> simp

theorem word_and_F020 (w : Word) :
    w &&& 0xF020#16 = (w.extractLsb 15 12 ++ 0#3 ++ 0#3 ++ BitVec.ofBool w[5] ++ 0#5 : BitVec (4 + 3 + 3 + 1 + 5)) := by
  apply BitVec.eq_of_getLsbD_eq
  intro i hi
  simp only [BitVec.getLsbD_and, BitVec.getLsbD_append, BitVec.extractLsb, BitVec.getLsbD_extractLsb']
  interval_cases i <;> simp

theorem word_and_F800 (w : Word) :
    w &&& 0xF800#16 = (w.extractLsb 15 12 ++ BitVec.ofBool w[11] ++ 0#11 : BitVec (4 + 1 + 11)) := by
  apply BitVec.eq_of_getLsbD_eq
  intro i hi
  simp only [BitVec.getLsbD_and, BitVec.getLsbD_append, BitVec.extractLsb, BitVec.getLsbD_extractLsb']
  interval_cases i <;> simp

theorem word_and_F1C0 (w : Word) :
    w &&& 0xF1C0#16 = (w.extractLsb 15 12 ++ 0#3 ++ w.extractLsb 8 6 ++ 0#6 : BitVec (4 + 3 + 3 + 6)) := by
  apply BitVec.eq_of_getLsbD_eq
  intro i hi
  simp only [BitVec.getLsbD_and, BitVec.getLsbD_append, BitVec.extractLsb, BitVec.getLsbD_extractLsb']
  interval_cases i <;> simp

theorem word_and_F0FF (w : Word) :
    w &&& 0xF0FF#16 = (w.extractLsb 15 12 ++ 0#4 ++ w.extractLsb 7 0 : BitVec (4 + 4 + 8)) := by
  apply BitVec.eq_of_getLsbD_eq
  intro i hi
  simp only [BitVec.getLsbD_and, BitVec.getLsbD_append, BitVec.extractLsb, BitVec.getLsbD_extractLsb']
  interval_cases i <;> simp

/-- Words that agree under a mask agree on every field the mask keeps whole. -/
theorem field_of_mask_eq {w v m : Word} (h : w &&& m = v &&& m) (hi lo : Nat)
    (hm : m.extractLsb hi lo = BitVec.allOnes (hi - lo + 1)) : w.extractLsb hi lo = v.extractLsb hi lo := by
  have h' := congrArg (BitVec.extractLsb hi lo) h
  rw [BitVec.extractLsb_and, BitVec.extractLsb_and, hm, BitVec.and_allOnes, BitVec.and_allOnes] at h'
  exact h'

/-! ## Decoding a word that matches a row -/

/-- The opcode of a word that matches a row, named. -/
theorem opcode_of_row {w m v : Word} (h : w &&& m = v) (hm : m.extractLsb 15 12 = 0b1111#4) {o : Opcode}
    (ho : Opcode.ofBits (v.extractLsb 15 12) = o) : Opcode.ofBits (w.extractLsb 15 12) = o := by
  rw [opcode_of_mask h hm, ho]

/-- A bit the mask keeps is the match's bit. -/
theorem bit_of_row {w m v : Word} (h : w &&& m = v) (k : Nat) (hk : k < 16) (hm : m[k] = true) : w[k] = v[k] := by
  have h' := congrArg (fun x : Word => x[k]) h
  simpa [hm] using h'

/-- The vector of a word that matches a trap row. -/
theorem vector_of_row {w v : Word} (h : w &&& 0xF0FF#16 = v) (hv : v &&& 0xF0FF#16 = v) :
    w.extractLsb 7 0 = v.extractLsb 7 0 :=
  field_of_mask_eq (m := 0xF0FF#16) (h.trans hv.symm) 7 0 rfl

end Sys2Proof
end

