-- ==== Sys2Proof/Laws/State.lean ====
section
/-! SUPPORT. One lemma per field of State per update, so that no later proof unfolds a record update; what reading a register
after an update gives; and the field lemmas of the composite updates. -/

namespace Sys2Proof.Machine

/-! ## Registers -/

theorem RegFile.get_set (f : RegFile) (r q : Reg) (v : Word) :
    (f.set r v).get q = if q = r then v else f.get q := by
  cases r <;> cases q <;> rfl

theorem State.reg_setReg (s : State) (r q : Reg) (v : Word) :
    (s.setReg r v).reg q = if q = r then v else s.reg q :=
  RegFile.get_set s.regs r q v

@[simp] theorem State.reg_setReg_self (s : State) (r : Reg) (v : Word) : (s.setReg r v).reg r = v := by
  simp [State.reg_setReg]

@[simp] theorem State.reg_setReg_ne (s : State) {r q : Reg} (v : Word) (h : q ≠ r) : (s.setReg r v).reg q = s.reg q := by
  simp [State.reg_setReg, h]

/-! ## setReg -/

@[simp] theorem State.setReg_regs (s : State) (r : Reg) (v : Word) : (s.setReg r v).regs = s.regs.set r v := rfl
@[simp] theorem State.setReg_pc (s : State) (r : Reg) (v : Word) : (s.setReg r v).pc = s.pc := rfl
@[simp] theorem State.setReg_cond (s : State) (r : Reg) (v : Word) : (s.setReg r v).cond = s.cond := rfl
@[simp] theorem State.setReg_mem (s : State) (r : Reg) (v : Word) : (s.setReg r v).mem = s.mem := rfl
@[simp] theorem State.setReg_run (s : State) (r : Reg) (v : Word) : (s.setReg r v).run = s.run := rfl
@[simp] theorem State.setReg_out (s : State) (r : Reg) (v : Word) : (s.setReg r v).out = s.out := rfl
@[simp] theorem State.setReg_keyboard (s : State) (r : Reg) (v : Word) : (s.setReg r v).keyboard = s.keyboard := rfl
@[simp] theorem State.setReg_draws (s : State) (r : Reg) (v : Word) : (s.setReg r v).draws = s.draws := rfl
@[simp] theorem State.setReg_putspHighByte (s : State) (r : Reg) (v : Word) : (s.setReg r v).putspHighByte = s.putspHighByte := rfl
@[simp] theorem State.setReg_rawRead (s : State) (r : Reg) (v : Word) (x : Word) : (s.setReg r v).rawRead x = s.rawRead x := rfl

/-! ## setPc -/

@[simp] theorem State.setPc_regs (s : State) (t : Word) : (s.setPc t).regs = s.regs := rfl
@[simp] theorem State.setPc_pc (s : State) (t : Word) : (s.setPc t).pc = t := rfl
@[simp] theorem State.setPc_cond (s : State) (t : Word) : (s.setPc t).cond = s.cond := rfl
@[simp] theorem State.setPc_mem (s : State) (t : Word) : (s.setPc t).mem = s.mem := rfl
@[simp] theorem State.setPc_run (s : State) (t : Word) : (s.setPc t).run = s.run := rfl
@[simp] theorem State.setPc_out (s : State) (t : Word) : (s.setPc t).out = s.out := rfl
@[simp] theorem State.setPc_keyboard (s : State) (t : Word) : (s.setPc t).keyboard = s.keyboard := rfl
@[simp] theorem State.setPc_draws (s : State) (t : Word) : (s.setPc t).draws = s.draws := rfl
@[simp] theorem State.setPc_putspHighByte (s : State) (t : Word) : (s.setPc t).putspHighByte = s.putspHighByte := rfl
@[simp] theorem State.setPc_reg (s : State) (t : Word) (q : Reg) : (s.setPc t).reg q = s.reg q := rfl
@[simp] theorem State.setPc_rawRead (s : State) (t : Word) (x : Word) : (s.setPc t).rawRead x = s.rawRead x := rfl

/-! ## setCc -/

@[simp] theorem State.setCc_regs (s : State) (v : Word) : (s.setCc v).regs = s.regs := rfl
@[simp] theorem State.setCc_pc (s : State) (v : Word) : (s.setCc v).pc = s.pc := rfl
@[simp] theorem State.setCc_cond (s : State) (v : Word) : (s.setCc v).cond = condOf v := rfl
@[simp] theorem State.setCc_mem (s : State) (v : Word) : (s.setCc v).mem = s.mem := rfl
@[simp] theorem State.setCc_run (s : State) (v : Word) : (s.setCc v).run = s.run := rfl
@[simp] theorem State.setCc_out (s : State) (v : Word) : (s.setCc v).out = s.out := rfl
@[simp] theorem State.setCc_keyboard (s : State) (v : Word) : (s.setCc v).keyboard = s.keyboard := rfl
@[simp] theorem State.setCc_draws (s : State) (v : Word) : (s.setCc v).draws = s.draws := rfl
@[simp] theorem State.setCc_putspHighByte (s : State) (v : Word) : (s.setCc v).putspHighByte = s.putspHighByte := rfl
@[simp] theorem State.setCc_reg (s : State) (v : Word) (q : Reg) : (s.setCc v).reg q = s.reg q := rfl
@[simp] theorem State.setCc_rawRead (s : State) (v : Word) (x : Word) : (s.setCc v).rawRead x = s.rawRead x := rfl

/-! ## poke -/

@[simp] theorem State.poke_regs (s : State) (a v : Word) : (s.poke a v).regs = s.regs := rfl
@[simp] theorem State.poke_pc (s : State) (a v : Word) : (s.poke a v).pc = s.pc := rfl
@[simp] theorem State.poke_cond (s : State) (a v : Word) : (s.poke a v).cond = s.cond := rfl
@[simp] theorem State.poke_mem (s : State) (a v : Word) : (s.poke a v).mem = s.mem.writeWord a v := rfl
@[simp] theorem State.poke_run (s : State) (a v : Word) : (s.poke a v).run = s.run := rfl
@[simp] theorem State.poke_out (s : State) (a v : Word) : (s.poke a v).out = s.out := rfl
@[simp] theorem State.poke_keyboard (s : State) (a v : Word) : (s.poke a v).keyboard = s.keyboard := rfl
@[simp] theorem State.poke_draws (s : State) (a v : Word) : (s.poke a v).draws = s.draws := rfl
@[simp] theorem State.poke_putspHighByte (s : State) (a v : Word) : (s.poke a v).putspHighByte = s.putspHighByte := rfl
@[simp] theorem State.poke_reg (s : State) (a v : Word) (q : Reg) : (s.poke a v).reg q = s.reg q := rfl

/-! ## consolePutChar -/

@[simp] theorem State.consolePutChar_regs (s : State) (b : Byte) : (s.consolePutChar b).regs = s.regs := rfl
@[simp] theorem State.consolePutChar_pc (s : State) (b : Byte) : (s.consolePutChar b).pc = s.pc := rfl
@[simp] theorem State.consolePutChar_cond (s : State) (b : Byte) : (s.consolePutChar b).cond = s.cond := rfl
@[simp] theorem State.consolePutChar_mem (s : State) (b : Byte) : (s.consolePutChar b).mem = s.mem := rfl
@[simp] theorem State.consolePutChar_run (s : State) (b : Byte) : (s.consolePutChar b).run = s.run := rfl
@[simp] theorem State.consolePutChar_out (s : State) (b : Byte) : (s.consolePutChar b).out = s.out ++ [b] := rfl
@[simp] theorem State.consolePutChar_keyboard (s : State) (b : Byte) : (s.consolePutChar b).keyboard = s.keyboard := rfl
@[simp] theorem State.consolePutChar_draws (s : State) (b : Byte) : (s.consolePutChar b).draws = s.draws := rfl
@[simp] theorem State.consolePutChar_putspHighByte (s : State) (b : Byte) : (s.consolePutChar b).putspHighByte = s.putspHighByte := rfl
@[simp] theorem State.consolePutChar_reg (s : State) (b : Byte) (q : Reg) : (s.consolePutChar b).reg q = s.reg q := rfl
@[simp] theorem State.consolePutChar_rawRead (s : State) (b : Byte) (x : Word) : (s.consolePutChar b).rawRead x = s.rawRead x := rfl

/-! ## consolePutChars -/

@[simp] theorem State.consolePutChars_regs (s : State) (bs : List Byte) : (s.consolePutChars bs).regs = s.regs := rfl
@[simp] theorem State.consolePutChars_pc (s : State) (bs : List Byte) : (s.consolePutChars bs).pc = s.pc := rfl
@[simp] theorem State.consolePutChars_cond (s : State) (bs : List Byte) : (s.consolePutChars bs).cond = s.cond := rfl
@[simp] theorem State.consolePutChars_mem (s : State) (bs : List Byte) : (s.consolePutChars bs).mem = s.mem := rfl
@[simp] theorem State.consolePutChars_run (s : State) (bs : List Byte) : (s.consolePutChars bs).run = s.run := rfl
@[simp] theorem State.consolePutChars_out (s : State) (bs : List Byte) : (s.consolePutChars bs).out = s.out ++ bs := rfl
@[simp] theorem State.consolePutChars_keyboard (s : State) (bs : List Byte) : (s.consolePutChars bs).keyboard = s.keyboard := rfl
@[simp] theorem State.consolePutChars_draws (s : State) (bs : List Byte) : (s.consolePutChars bs).draws = s.draws := rfl
@[simp] theorem State.consolePutChars_putspHighByte (s : State) (bs : List Byte) : (s.consolePutChars bs).putspHighByte = s.putspHighByte := rfl
@[simp] theorem State.consolePutChars_reg (s : State) (bs : List Byte) (q : Reg) : (s.consolePutChars bs).reg q = s.reg q := rfl
@[simp] theorem State.consolePutChars_rawRead (s : State) (bs : List Byte) (x : Word) : (s.consolePutChars bs).rawRead x = s.rawRead x := rfl

/-! ## raiseFatal -/

@[simp] theorem State.raiseFatal_regs (s : State) (e : AbortReason) : (s.raiseFatal e).regs = s.regs := rfl
@[simp] theorem State.raiseFatal_pc (s : State) (e : AbortReason) : (s.raiseFatal e).pc = s.pc := rfl
@[simp] theorem State.raiseFatal_cond (s : State) (e : AbortReason) : (s.raiseFatal e).cond = s.cond := rfl
@[simp] theorem State.raiseFatal_mem (s : State) (e : AbortReason) : (s.raiseFatal e).mem = s.mem := rfl
@[simp] theorem State.raiseFatal_run (s : State) (e : AbortReason) : (s.raiseFatal e).run = .aborted e := rfl
@[simp] theorem State.raiseFatal_out (s : State) (e : AbortReason) : (s.raiseFatal e).out = s.out := rfl
@[simp] theorem State.raiseFatal_keyboard (s : State) (e : AbortReason) : (s.raiseFatal e).keyboard = s.keyboard := rfl
@[simp] theorem State.raiseFatal_draws (s : State) (e : AbortReason) : (s.raiseFatal e).draws = s.draws := rfl
@[simp] theorem State.raiseFatal_putspHighByte (s : State) (e : AbortReason) : (s.raiseFatal e).putspHighByte = s.putspHighByte := rfl
@[simp] theorem State.raiseFatal_reg (s : State) (e : AbortReason) (q : Reg) : (s.raiseFatal e).reg q = s.reg q := rfl
@[simp] theorem State.raiseFatal_rawRead (s : State) (e : AbortReason) (x : Word) : (s.raiseFatal e).rawRead x = s.rawRead x := rfl

/-! ## enterHalted -/

@[simp] theorem State.enterHalted_regs (s : State) : (s.enterHalted).regs = s.regs := rfl
@[simp] theorem State.enterHalted_pc (s : State) : (s.enterHalted).pc = s.pc := rfl
@[simp] theorem State.enterHalted_cond (s : State) : (s.enterHalted).cond = s.cond := rfl
@[simp] theorem State.enterHalted_mem (s : State) : (s.enterHalted).mem = s.mem := rfl
@[simp] theorem State.enterHalted_run (s : State) : (s.enterHalted).run = .halted := rfl
@[simp] theorem State.enterHalted_out (s : State) : (s.enterHalted).out = s.out := rfl
@[simp] theorem State.enterHalted_keyboard (s : State) : (s.enterHalted).keyboard = s.keyboard := rfl
@[simp] theorem State.enterHalted_draws (s : State) : (s.enterHalted).draws = s.draws := rfl
@[simp] theorem State.enterHalted_putspHighByte (s : State) : (s.enterHalted).putspHighByte = s.putspHighByte := rfl
@[simp] theorem State.enterHalted_reg (s : State) (q : Reg) : (s.enterHalted).reg q = s.reg q := rfl
@[simp] theorem State.enterHalted_rawRead (s : State) (x : Word) : (s.enterHalted).rawRead x = s.rawRead x := rfl

/-! ## withPutspHighByte -/

@[simp] theorem State.withPutspHighByte_regs (s : State) (m : PutspHighByte) : (s.withPutspHighByte m).regs = s.regs := rfl
@[simp] theorem State.withPutspHighByte_pc (s : State) (m : PutspHighByte) : (s.withPutspHighByte m).pc = s.pc := rfl
@[simp] theorem State.withPutspHighByte_cond (s : State) (m : PutspHighByte) : (s.withPutspHighByte m).cond = s.cond := rfl
@[simp] theorem State.withPutspHighByte_mem (s : State) (m : PutspHighByte) : (s.withPutspHighByte m).mem = s.mem := rfl
@[simp] theorem State.withPutspHighByte_run (s : State) (m : PutspHighByte) : (s.withPutspHighByte m).run = s.run := rfl
@[simp] theorem State.withPutspHighByte_out (s : State) (m : PutspHighByte) : (s.withPutspHighByte m).out = s.out := rfl
@[simp] theorem State.withPutspHighByte_keyboard (s : State) (m : PutspHighByte) : (s.withPutspHighByte m).keyboard = s.keyboard := rfl
@[simp] theorem State.withPutspHighByte_draws (s : State) (m : PutspHighByte) : (s.withPutspHighByte m).draws = s.draws := rfl
@[simp] theorem State.withPutspHighByte_putspHighByte (s : State) (m : PutspHighByte) :
    (s.withPutspHighByte m).putspHighByte = m := rfl
@[simp] theorem State.withPutspHighByte_reg (s : State) (m : PutspHighByte) (q : Reg) :
    (s.withPutspHighByte m).reg q = s.reg q := rfl
@[simp] theorem State.withPutspHighByte_rawRead (s : State) (m : PutspHighByte) (x : Word) :
    (s.withPutspHighByte m).rawRead x = s.rawRead x := rfl

/-! ## The composite updates, in terms of the plain ones -/

@[simp] theorem State.writeResult_eq (s : State) (dr : Reg) (v : Word) :
    s.writeResult dr v = (s.setReg dr v).setCc v := rfl
@[simp] theorem State.memWrite_eq (s : State) (a v : Word) : s.memWrite a v = s.poke a v := rfl
@[simp] theorem State.jumpToReg_eq (s : State) (r : Reg) : s.jumpToReg r = s.setPc (s.reg r) := rfl
@[simp] theorem State.link_eq (s : State) : s.link = s.setReg .r7 s.pc := rfl
@[simp] theorem State.loadInto_eq (s : State) (dr : Reg) (ea : Word) :
    s.loadInto dr ea = ((s.memRead ea).2.setReg dr (s.memRead ea).1).setCc (s.memRead ea).1 := rfl
@[simp] theorem State.indirect_eq (s : State) (off9 : BitVec 9) : s.indirect off9 = s.memRead (s.pc + sext off9) := rfl
@[simp] theorem State.pcRelative_eq {n : Nat} (s : State) (off : BitVec n) : s.pcRelative off = s.pc + sext off := rfl
@[simp] theorem State.baseOffset_eq (s : State) (b : Reg) (off6 : BitVec 6) : s.baseOffset b off6 = s.reg b + sext off6 := rfl

end Sys2Proof.Machine
end

