-- ==== Sys2Proof/Laws/Memory.lean ====
section
/-! SUPPORT. The memory operations: what a read gives after a write, byte by byte and word by word, and that every operation keeps
the canonical form. The read laws hold of every list, canonical or not. -/

namespace Sys2Proof.Machine

/-! ## Bytes -/

theorem readByte_erase (m : Memory) (a b : Nat) :
    (m.erase a).readByte b = if b = a then Config.unlistedByte else m.readByte b := by
  induction m with
  | nil => simp [Memory.erase, Memory.readByte]
  | cons c m ih =>
    obtain ⟨k, v⟩ := c
    simp only [Memory.erase] at ih
    by_cases hk : k = a
    · subst hk
      by_cases hb : b = k
      · simpa [Memory.erase, hb] using ih
      · simp [Memory.erase, Memory.readByte, ih, hb, Ne.symm hb]
    · by_cases hb : k = b
      · subst hb; simp [Memory.erase, Memory.readByte, hk]
      · simp [Memory.erase, Memory.readByte, hk, hb, ih]

theorem readByte_insert_ne (m : Memory) {a b : Nat} (v : Byte) (h : b ≠ a) :
    (m.insert a v).readByte b = m.readByte b := by
  induction m with
  | nil => simp [Memory.insert, Memory.readByte, Ne.symm h]
  | cons c m ih =>
    obtain ⟨k, w⟩ := c
    by_cases hlt : a < k
    · simp [Memory.insert, Memory.readByte, hlt, Ne.symm h]
    · simp [Memory.insert, Memory.readByte, hlt, ih]

theorem readByte_insert_self (m : Memory) (a : Nat) (v : Byte) (h : ∀ c ∈ m, c.1 ≠ a) :
    (m.insert a v).readByte a = v := by
  induction m with
  | nil => simp [Memory.insert, Memory.readByte]
  | cons c m ih =>
    obtain ⟨k, w⟩ := c
    have hk : k ≠ a := h (k, w) (by simp)
    by_cases hlt : a < k
    · simp [Memory.insert, Memory.readByte, hlt]
    · simp [Memory.insert, Memory.readByte, hlt, hk, ih (fun c hc => h c (by simp [hc]))]

/-- A byte read after a byte write. -/
theorem readByte_writeByte (m : Memory) (a b : Nat) (v : Byte) :
    (m.writeByte a v).readByte b = if b = a then v else m.readByte b := by
  unfold Memory.writeByte
  split
  · next hv => rw [readByte_erase]; simp [hv]
  · by_cases hb : b = a
    · subst hb
      simp only [if_true]
      exact readByte_insert_self _ _ _ (fun c hc => by simpa [Memory.erase] using (List.mem_filter.mp hc).2)
    · rw [readByte_insert_ne _ _ hb, readByte_erase]; simp [hb]

/-! ## Words -/

theorem getLsbD_wordOfBytes (h l : Byte) (i : Nat) :
    (wordOfBytes h l).getLsbD i = if i < 8 then l.getLsbD i else h.getLsbD (i - 8) := by
  show (h ++ l : BitVec (8 + 8)).getLsbD i = _
  rw [BitVec.getLsbD_append]

@[simp] theorem hiByte_wordOfBytes (h l : Byte) : hiByte (wordOfBytes h l) = h := by
  apply BitVec.eq_of_getLsbD_eq
  intro i hi
  simp [hiByte, BitVec.extractLsb, hi, getLsbD_wordOfBytes]

@[simp] theorem loByte_wordOfBytes (h l : Byte) : loByte (wordOfBytes h l) = l := by
  apply BitVec.eq_of_getLsbD_eq
  intro i hi
  simp [loByte, BitVec.extractLsb, hi, getLsbD_wordOfBytes]

@[simp] theorem wordOfBytes_hiByte_loByte (w : Word) : wordOfBytes (hiByte w) (loByte w) = w := by
  apply BitVec.eq_of_getLsbD_eq
  intro i hi
  simp only [getLsbD_wordOfBytes, hiByte, loByte, BitVec.extractLsb, BitVec.getLsbD_extractLsb']
  by_cases h : i < 8
  · simp [h]
  · simp [h, show i - 8 < 8 by omega, show 8 + (i - 8) = i by omega]

theorem wordKey_inj {a b : Word} (h : wordKey a = wordKey b) : a = b := by
  apply BitVec.eq_of_toNat_eq; simp only [wordKey] at h; omega

theorem wordKey_ne_succ (a b : Word) : wordKey a ≠ wordKey b + 1 := by
  simp only [wordKey]; omega

/-- A byte read after a word write. -/
theorem readByte_writeWord (m : Memory) (a v : Word) (k : Nat) :
    (m.writeWord a v).readByte k =
      if k = wordKey a + 1 then loByte v else if k = wordKey a then hiByte v else m.readByte k := by
  simp [Memory.writeWord, readByte_writeByte]

/-- A word read after a word write (20_memory.md R46, R55). -/
theorem readWord_writeWord (m : Memory) (a b v : Word) :
    (m.writeWord a v).readWord b = if b = a then v else m.readWord b := by
  unfold Memory.readWord
  rw [readByte_writeWord, readByte_writeWord]
  by_cases h : b = a
  · subst h; simp
  · have h1 : wordKey b ≠ wordKey a := fun e => h (wordKey_inj e)
    simp [h, h1, wordKey_ne_succ, (wordKey_ne_succ a b).symm]

theorem rawRead_poke (s : State) (a b v : Word) :
    (s.poke a v).rawRead b = if b = a then v else s.rawRead b :=
  readWord_writeWord s.mem a b v

@[simp] theorem rawRead_poke_self (s : State) (a v : Word) : (s.poke a v).rawRead a = v := by
  simp [rawRead_poke]

@[simp] theorem rawRead_poke_ne (s : State) {a b : Word} (v : Word) (h : b ≠ a) : (s.poke a v).rawRead b = s.rawRead b := by
  simp [rawRead_poke, h]

/-- No byte outside the stored word changes. -/
theorem sameBytesBut_poke (s : State) (a v : Word) : s.sameBytesBut (s.poke a v) [a] := by
  intro k hk
  have := hk a (by simp)
  simp [readByte_writeWord, this.1, this.2]

/-! ## The canonical form -/

theorem wfFrom_mono {lo hi : Nat} {m : Memory} (h : lo ≤ hi) (hm : m.wfFrom hi = true) : m.wfFrom lo = true := by
  cases m with
  | nil => rfl
  | cons c m =>
    obtain ⟨k, b⟩ := c
    simp only [Memory.wfFrom, Bool.and_eq_true, decide_eq_true_eq] at hm ⊢
    exact ⟨⟨⟨by omega, hm.1.1.2⟩, hm.1.2⟩, hm.2⟩

theorem wfFrom_erase {lo : Nat} {m : Memory} (a : Nat) (hm : m.wfFrom lo = true) : (m.erase a).wfFrom lo = true := by
  induction m generalizing lo with
  | nil => rfl
  | cons c m ih =>
    obtain ⟨k, b⟩ := c
    simp only [Memory.wfFrom, Bool.and_eq_true, decide_eq_true_eq] at hm
    by_cases hk : k = a
    · have : Memory.erase ((k, b) :: m) a = Memory.erase m a := by simp [Memory.erase, hk]
      rw [this]
      exact ih (wfFrom_mono (by omega) hm.2)
    · have : Memory.erase ((k, b) :: m) a = (k, b) :: Memory.erase m a := by simp [Memory.erase, hk]
      rw [this]
      simp only [Memory.wfFrom, Bool.and_eq_true, decide_eq_true_eq]
      exact ⟨hm.1, ih hm.2⟩

theorem wfFrom_insert {lo a : Nat} {m : Memory} {v : Byte} (hlo : lo ≤ a) (ha : a < memBytes)
    (hv : v ≠ Config.unlistedByte) (hne : ∀ c ∈ m, c.1 ≠ a) (hm : m.wfFrom lo = true) :
    (m.insert a v).wfFrom lo = true := by
  induction m generalizing lo with
  | nil => simp [Memory.insert, Memory.wfFrom, hlo, ha, hv]
  | cons c m ih =>
    obtain ⟨k, b⟩ := c
    have hk : k ≠ a := hne (k, b) (by simp)
    simp only [Memory.wfFrom, Bool.and_eq_true, decide_eq_true_eq] at hm
    by_cases hlt : a < k
    · simp only [Memory.insert, hlt, if_true, Memory.wfFrom, Bool.and_eq_true, decide_eq_true_eq]
      exact ⟨⟨⟨hlo, ha⟩, by simpa using hv⟩, ⟨⟨by omega, hm.1.1.2⟩, hm.1.2⟩, hm.2⟩
    · simp only [Memory.insert, hlt, if_false, Memory.wfFrom, Bool.and_eq_true, decide_eq_true_eq]
      exact ⟨hm.1, ih (by omega) (fun c hc => hne c (by simp [hc])) hm.2⟩

/-- A byte write inside the address space keeps the canonical form. -/
theorem wf_writeByte {m : Memory} {a : Nat} (v : Byte) (ha : a < memBytes) (hm : m.wf = true) :
    (m.writeByte a v).wf = true := by
  unfold Memory.writeByte
  split
  · exact wfFrom_erase a hm
  · next hv =>
    exact wfFrom_insert (Nat.zero_le _) ha hv
      (fun c hc => by simpa [Memory.erase] using (List.mem_filter.mp hc).2) (wfFrom_erase a hm)

/-- A word write keeps the canonical form. -/
theorem wf_writeWord {m : Memory} (a v : Word) (hm : m.wf = true) : (m.writeWord a v).wf = true := by
  have : a.toNat < 65536 := a.isLt
  exact wf_writeByte _ (by simp only [wordKey, memBytes]; omega) (wf_writeByte _ (by simp only [wordKey, memBytes]; omega) hm)

/-- The reset memory is canonical. -/
theorem wf_reset : State.reset.mem.wf = true := rfl

end Sys2Proof.Machine
end

