-- ==== Sys2Proof/Laws/Ops.lean ====
section
/-! SUPPORT. For each shared operation, once, what it can do: the console primitives, the hooked read, the fetch, the string
walks, the services and the Loader. -/

namespace Sys2Proof.Machine

/-! ## Console primitives -/

@[simp] theorem consolePoll_fst (s : State) : s.consolePoll.1 = s.nextPoll := by
  unfold State.consolePoll State.nextPoll; cases s.keyboard <;> rfl

/-- A poll changes nothing but the host's side. -/
theorem consolePoll_snd (s : State) :
    s.consolePoll.2 =
      { s with keyboard := s.keyboard.tail, draws := if s.keyboard = [] then s.draws + 1 else s.draws } := by
  obtain ⟨regs, pc, cond, mem, run, out, keyboard, draws⟩ := s
  cases keyboard <;> rfl

/-- The first key of a list of draws stands after waits only. -/
theorem firstKey_eq_some {ks rest : List (Option Byte)} {c : Byte} :
    firstKey ks = some (c, rest) ↔ ∃ n, ks = List.replicate n none ++ some c :: rest := by
  induction ks with
  | nil => simp [firstKey]
  | cons k ks ih =>
    cases k with
    | none =>
      simp only [firstKey, ih]
      constructor
      · rintro ⟨n, rfl⟩; exact ⟨n + 1, by simp [List.replicate_succ]⟩
      · rintro ⟨n, h⟩
        cases n with
        | zero => simp at h
        | succ n => exact ⟨n, by simpa [List.replicate_succ] using h⟩
    | some d =>
      simp only [firstKey, Option.some.injEq, Prod.mk.injEq]
      constructor
      · rintro ⟨rfl, rfl⟩; exact ⟨0, rfl⟩
      · rintro ⟨n, h⟩
        cases n with
        | zero => simpa using h
        | succ n => simp [List.replicate_succ] at h

/-- A list without a key is a list of waits. -/
theorem firstKey_eq_none {ks : List (Option Byte)} : firstKey ks = none ↔ ∀ k ∈ ks, k = none := by
  induction ks with
  | nil => simp [firstKey]
  | cons k ks ih => cases k <;> simp [firstKey, ih]

/-- What ConsoleGetChar changes when it returns: the host's side only. -/
theorem consoleGetChar_frame {s s' : State} {c : Byte} (h : s.consoleGetChar = some (c, s')) :
    s' = { s with keyboard := s'.keyboard, draws := s'.draws } := by
  unfold State.consoleGetChar at h
  split at h
  · simp only [Option.some.injEq, Prod.mk.injEq] at h; rw [← h.2]
  · split at h
    · simp only [Option.some.injEq, Prod.mk.injEq] at h; rw [← h.2]
    · simp at h

/-! ## The hooked read -/

/-- A read of any address but KBSR has no side effect (20_memory.md R44, R45). -/
theorem memRead_of_ne (s : State) {a : Word} (h : a ≠ Config.kbsr) : s.memRead a = (s.rawRead a, s) := by
  simp [State.memRead, State.deviceHook, h]

/-- Every word after a hooked read (20_memory.md R43). -/
theorem rawRead_deviceHook (s : State) (a b : Word) : (s.deviceHook a).rawRead b = s.wordAfterRead a b := by
  unfold State.deviceHook State.wordAfterRead
  by_cases ha : a = Config.kbsr
  · rw [if_pos ha, if_pos ha, consolePoll_fst]
    have hr : s.consolePoll.2.rawRead b = s.rawRead b := by rw [consolePoll_snd]; rfl
    cases s.nextPoll with
    | none => simp only [State.latchPoll, rawRead_poke, hr]
    | some c =>
      simp only [State.latchPoll, rawRead_poke, hr]
      by_cases h1 : b = Config.kbsr
      · subst h1; simp [show Config.kbsr ≠ Config.kbdr by decide]
      · simp [h1]
  · rw [if_neg ha, if_neg ha]

@[simp] theorem memRead_fst (s : State) (a : Word) : (s.memRead a).1 = s.wordAfterRead a a := rawRead_deviceHook s a a
@[simp] theorem rawRead_memRead (s : State) (a b : Word) : (s.memRead a).2.rawRead b = s.wordAfterRead a b :=
  rawRead_deviceHook s a b

/-- A hooked read changes memory and the host's side only. -/
theorem deviceHook_frame (s : State) (a : Word) :
    s.deviceHook a = { s with mem := (s.deviceHook a).mem, keyboard := s.keyboardAfterRead a, draws := s.drawsAfterRead a } := by
  unfold State.deviceHook State.keyboardAfterRead State.drawsAfterRead
  by_cases ha : a = Config.kbsr
  · simp only [ha, if_true, true_and]
    rw [consolePoll_snd]
    cases s.consolePoll.1 <;> rfl
  · simp [ha]

@[simp] theorem memRead_regs (s : State) (a : Word) : (s.memRead a).2.regs = s.regs := by
  show (s.deviceHook a).regs = _; rw [deviceHook_frame]
@[simp] theorem memRead_pc (s : State) (a : Word) : (s.memRead a).2.pc = s.pc := by
  show (s.deviceHook a).pc = _; rw [deviceHook_frame]
@[simp] theorem memRead_cond (s : State) (a : Word) : (s.memRead a).2.cond = s.cond := by
  show (s.deviceHook a).cond = _; rw [deviceHook_frame]
@[simp] theorem memRead_run (s : State) (a : Word) : (s.memRead a).2.run = s.run := by
  show (s.deviceHook a).run = _; rw [deviceHook_frame]
@[simp] theorem memRead_out (s : State) (a : Word) : (s.memRead a).2.out = s.out := by
  show (s.deviceHook a).out = _; rw [deviceHook_frame]
@[simp] theorem memRead_keyboard (s : State) (a : Word) : (s.memRead a).2.keyboard = s.keyboardAfterRead a := by
  show (s.deviceHook a).keyboard = _; rw [deviceHook_frame]
@[simp] theorem memRead_draws (s : State) (a : Word) : (s.memRead a).2.draws = s.drawsAfterRead a := by
  show (s.deviceHook a).draws = _; rw [deviceHook_frame]
@[simp] theorem memRead_putspHighByte (s : State) (a : Word) : (s.memRead a).2.putspHighByte = s.putspHighByte := by
  show (s.deviceHook a).putspHighByte = _; rw [deviceHook_frame]
@[simp] theorem memRead_reg (s : State) (a : Word) (q : Reg) : (s.memRead a).2.reg q = s.reg q := by
  simp [State.reg]

/-- No byte but those of the two device cells changes, and none at all away from KBSR. -/
theorem sameBytesBut_memRead (s : State) (a : Word) :
    s.sameBytesBut (s.memRead a).2 (if a = Config.kbsr then [Config.kbsr, Config.kbdr] else []) := by
  intro k hk
  show (s.deviceHook a).mem.readByte k = _
  unfold State.deviceHook
  by_cases ha : a = Config.kbsr
  · have h1 := hk Config.kbsr (by simp [ha])
    have h2 := hk Config.kbdr (by simp [ha])
    have hm : s.consolePoll.2.mem = s.mem := by rw [consolePoll_snd]
    rw [if_pos ha]
    cases s.consolePoll.1 <;> simp [State.latchPoll, readByte_writeWord, h1.1, h1.2, h2.1, h2.2, hm]
  · rw [if_neg ha]

/-- A hooked read leaves memory and host input as R43 says. -/
theorem readLeaves_memRead (s : State) (a : Word) : s.readLeaves (s.memRead a).2 a :=
  ⟨rawRead_memRead s a, sameBytesBut_memRead s a, memRead_keyboard s a, memRead_draws s a⟩

/-- What a read leaves depends on memory and host input only. -/
theorem readLeaves_congr {s t u : State} {a : Word} (h : s.readLeaves t a) (hm : u.mem = t.mem) (hk : u.keyboard = t.keyboard)
    (hd : u.draws = t.draws) : s.readLeaves u a := by
  obtain ⟨h1, h2, h3, h4⟩ := h
  exact ⟨fun b => by simp only [State.rawRead, hm]; exact h1 b, fun k hk' => by rw [hm]; exact h2 k hk', hk ▸ h3, hd ▸ h4⟩

/-- The value a read of KBSR returns is 0x8000 or 0x0000 (20_memory.md R43, R249). -/
theorem wordAfterRead_kbsr (s : State) :
    s.wordAfterRead Config.kbsr Config.kbsr = 0x8000#16 ∨ s.wordAfterRead Config.kbsr Config.kbsr = 0x0000#16 := by
  unfold State.wordAfterRead; cases s.nextPoll <;> simp

/-- A hooked read keeps the canonical form. -/
theorem wf_memRead {s : State} (a : Word) (h : s.mem.wf = true) : (s.memRead a).2.mem.wf = true := by
  show (s.deviceHook a).mem.wf = true
  unfold State.deviceHook
  have hm : s.consolePoll.2.mem.wf = true := by rw [consolePoll_snd]; exact h
  split
  · cases s.consolePoll.1 with
    | none => simpa only [State.latchPoll, State.poke_mem] using wf_writeWord _ _ hm
    | some c => simpa only [State.latchPoll, State.poke_mem] using wf_writeWord _ _ (wf_writeWord _ _ hm)
  · exact h

/-! ## The fetch -/

@[simp] theorem fetch_fst (s : State) : s.fetch.1 = s.wordAfterRead s.pc s.pc := memRead_fst s s.pc
@[simp] theorem fetch_snd (s : State) : s.fetch.2 = (s.memRead s.pc).2.setPc (s.pc + 1#16) := rfl

/-! ## String walks -/

@[simp] theorem emitScan_bytes_end (s : State) (bs : List Byte) :
    s.emitScan { bytes := bs, pastEnd := false } = s.consolePutChars bs := rfl
@[simp] theorem emitScan_past_end (s : State) (bs : List Byte) :
    s.emitScan { bytes := bs, pastEnd := true } = (s.consolePutChars bs).raiseFatal .stringPastEnd := rfl

/-- A walk's effect: its characters are appended, and the machine aborts or runs on. -/
theorem emitScan_eq (s : State) (scan : StringScan) :
    s.emitScan scan =
      { s with out := s.out ++ scan.bytes, run := if scan.pastEnd then .aborted .stringPastEnd else s.run } := by
  obtain ⟨bs, e⟩ := scan; cases e <;> rfl

/-- A string split at its first word: the rest of it, read from the next address. -/
theorem string_tail {m : Memory} {a w : Word} {ws : List Word}
    (hs : ∀ (k : Nat) (v : Word), (w :: ws)[k]? = some v → m.readWord (a + BitVec.ofNat 16 k) = v) :
    m.readWord a = w ∧ ∀ (k : Nat) (v : Word), ws[k]? = some v → m.readWord (a + 1#16 + BitVec.ofNat 16 k) = v := by
  refine ⟨by simpa using hs 0 w rfl, fun k v hk => ?_⟩
  have := hs (k + 1) v (by simpa using hk)
  rwa [BitVec.ofNat_add, BitVec.add_comm (BitVec.ofNat 16 k), ← BitVec.add_assoc] at this

theorem add_ofNat_succ (a : Word) (j : Nat) : a + 1#16 + BitVec.ofNat 16 j = a + BitVec.ofNat 16 (j + 1) := by
  rw [BitVec.ofNat_add, BitVec.add_assoc, BitVec.add_comm (1#16)]

theorem toNat_succ {a : Word} (h : a.toNat + 1 ≠ 65536) : (a + 1#16).toNat = a.toNat + 1 := by
  have := a.isLt; simp [BitVec.toNat_add]; omega

/-- PUTS over a string of non-zero words: a zero word ends it, the end of memory breaks it off (43_trap.md R173). -/
theorem putsScan_eq (m : Memory) (ws : List Word) : ∀ (a : Word), (∀ w ∈ ws, w ≠ 0x0000#16) →
    (∀ (k : Nat) (w : Word), ws[k]? = some w → m.readWord (a + BitVec.ofNat 16 k) = w) →
    (a.toNat + ws.length < 65536 → m.readWord (a + BitVec.ofNat 16 ws.length) = 0x0000#16 →
      putsScan m (wordsLeft a) a = { bytes := ws.map loByte, pastEnd := false }) ∧
    (a.toNat + ws.length = 65536 → putsScan m (wordsLeft a) a = { bytes := ws.map loByte, pastEnd := true }) := by
  induction ws with
  | nil =>
    intro a _ _
    have := a.isLt
    obtain ⟨k, hk⟩ : ∃ k, wordsLeft a = k + 1 := ⟨65535 - a.toNat, by unfold wordsLeft; omega⟩
    refine ⟨fun _ h => ?_, fun h => by simp at h; omega⟩
    simp at h
    simp [hk, putsScan, h]
  | cons w ws ih =>
    intro a h0 hs
    have := a.isLt
    obtain ⟨hw, ht⟩ := string_tail hs
    have hw0 : w ≠ 0x0000#16 := h0 w (by simp)
    obtain ⟨k, hk⟩ : ∃ k, wordsLeft a = k + 1 := ⟨65535 - a.toNat, by unfold wordsLeft; omega⟩
    have hstep : putsScan m (wordsLeft a) a = (putsScan m k (a + 1#16)).after [loByte w] := by simp [hk, putsScan, hw, hw0]
    rw [hstep]
    by_cases hl : a.toNat + 1 = 65536
    · obtain rfl : k = 0 := by unfold wordsLeft at hk; omega
      refine ⟨fun h => by simp at h; omega, fun h => ?_⟩
      simp only [List.length_cons] at h
      rw [List.length_eq_zero_iff.mp (show ws.length = 0 by omega)]; rfl
    · have ha := toNat_succ hl
      obtain rfl : k = wordsLeft (a + 1#16) := by unfold wordsLeft at hk ⊢; omega
      obtain ⟨i1, i2⟩ := ih (a + 1#16) (fun x hx => h0 x (by simp [hx])) ht
      rw [List.length_cons, ← add_ofNat_succ]
      exact ⟨fun h hz => by rw [i1 (by omega) hz]; rfl, fun h => by rw [i2 (by omega)]; rfl⟩

/-- PUTSP over words with a non-zero high byte: a zero word or a word with high byte 0 ends it, the end of memory breaks it off
(43_trap.md R175). -/
theorem putspScan_eq (mode : PutspHighByte) (m : Memory) (ws : List Word) : ∀ (a : Word),
    (∀ w ∈ ws, w.extractLsb 15 8 ≠ 0x00#8) →
    (∀ (k : Nat) (w : Word), ws[k]? = some w → m.readWord (a + BitVec.ofNat 16 k) = w) →
    (a.toNat + ws.length < 65536 → m.readWord (a + BitVec.ofNat 16 ws.length) = 0x0000#16 →
      putspScan mode m (wordsLeft a) a = { bytes := ws.flatMap (packedChars mode), pastEnd := false }) ∧
    (a.toNat + ws.length < 65536 → m.readWord (a + BitVec.ofNat 16 ws.length) ≠ 0x0000#16 →
      (m.readWord (a + BitVec.ofNat 16 ws.length)).extractLsb 15 8 = 0x00#8 →
      putspScan mode m (wordsLeft a) a =
        { bytes := ws.flatMap (packedChars mode) ++ [(m.readWord (a + BitVec.ofNat 16 ws.length)).extractLsb 7 0]
          pastEnd := false }) ∧
    (a.toNat + ws.length = 65536 →
      putspScan mode m (wordsLeft a) a = { bytes := ws.flatMap (packedChars mode), pastEnd := true }) := by
  induction ws with
  | nil =>
    intro a _ _
    have := a.isLt
    obtain ⟨k, hk⟩ : ∃ k, wordsLeft a = k + 1 := ⟨65535 - a.toNat, by unfold wordsLeft; omega⟩
    refine ⟨fun _ h => ?_, fun _ h1 h2 => ?_, fun h => by simp at h; omega⟩
    · simp at h
      simp [hk, putspScan, h]
    · simp only [List.length_nil, BitVec.add_zero] at h1 h2
      change hiByte _ = _ at h2
      simp [hk, putspScan, h1, h2]; rfl
  | cons w ws ih =>
    intro a h0 hs
    have := a.isLt
    obtain ⟨hw, ht⟩ := string_tail hs
    have hh0 : hiByte w ≠ 0x00#8 := h0 w (by simp)
    have hw0 : w ≠ 0x0000#16 := by rintro rfl; exact hh0 rfl
    obtain ⟨k, hk⟩ : ∃ k, wordsLeft a = k + 1 := ⟨65535 - a.toNat, by unfold wordsLeft; omega⟩
    have hstep : putspScan mode m (wordsLeft a) a = (putspScan mode m k (a + 1#16)).after (packedChars mode w) := by
      cases mode <;> simp [hk, putspScan, hw, hw0, hh0, putspHi, packedChars] <;> rfl
    rw [hstep]
    by_cases hl : a.toNat + 1 = 65536
    · obtain rfl : k = 0 := by unfold wordsLeft at hk; omega
      refine ⟨fun h => by simp at h; omega, fun h => by simp at h; omega, fun h => ?_⟩
      simp only [List.length_cons] at h
      rw [List.length_eq_zero_iff.mp (show ws.length = 0 by omega)]
      simp [putspScan, StringScan.after]
    · have ha := toNat_succ hl
      obtain rfl : k = wordsLeft (a + 1#16) := by unfold wordsLeft at hk ⊢; omega
      obtain ⟨i1, i2, i3⟩ := ih (a + 1#16) (fun x hx => h0 x (by simp [hx])) ht
      rw [List.length_cons, ← add_ofNat_succ]
      refine ⟨fun h hz => by rw [i1 (by omega) hz]; rfl, fun h hz hh => ?_, fun h => by rw [i3 (by omega)]; rfl⟩
      rw [i2 (by omega) hz hh]
      simp only [StringScan.after, List.flatMap_cons, List.append_assoc]

/-- From every address a walk meets a word that ends it, or the end of memory. -/
theorem exists_string (m : Memory) (stop : Word → Bool) : ∀ (n : Nat) (a : Word), wordsLeft a = n →
    ∃ ws : List Word, (∀ w ∈ ws, stop w = false) ∧
      (∀ (k : Nat) (w : Word), ws[k]? = some w → m.readWord (a + BitVec.ofNat 16 k) = w) ∧
      (a.toNat + ws.length = 65536 ∨
        (a.toNat + ws.length < 65536 ∧ stop (m.readWord (a + BitVec.ofNat 16 ws.length)) = true)) := by
  intro n
  induction n with
  | zero => intro a h; have := a.isLt; unfold wordsLeft at h; omega
  | succ n ih =>
    intro a hn
    have := a.isLt
    by_cases hz : stop (m.readWord a) = true
    · exact ⟨[], by simp, by simp, .inr ⟨by simpa using this, by simpa using hz⟩⟩
    by_cases hl : a.toNat + 1 = 65536
    · refine ⟨[m.readWord a], by simpa using hz, ?_, .inl (by simpa using hl)⟩
      intro k w hk
      cases k with
      | zero => simpa using hk
      | succ k => simp at hk
    · have ha := toNat_succ hl
      obtain ⟨ws, h1, h2, h3⟩ := ih (a + 1#16) (by unfold wordsLeft at hn ⊢; omega)
      refine ⟨m.readWord a :: ws, by simpa using ⟨by simpa using hz, h1⟩, ?_, ?_⟩
      · intro k w hk
        cases k with
        | zero => simpa using hk
        | succ k => rw [← add_ofNat_succ]; exact h2 k w (by simpa using hk)
      · rw [List.length_cons, ← add_ofNat_succ]
        exact h3.imp (fun h => by omega) (fun ⟨h, h'⟩ => ⟨by omega, h'⟩)

/-- PUTS looks at no word below its start. -/
theorem putsScan_congr (m m' : Memory) : ∀ (n : Nat) (a : Word), wordsLeft a = n →
    (∀ b : Word, a.toNat ≤ b.toNat → m'.readWord b = m.readWord b) → putsScan m' n a = putsScan m n a := by
  intro n
  induction n with
  | zero => intro a _ _; rfl
  | succ n ih =>
    intro a hn h
    simp only [putsScan, h a (Nat.le_refl _)]
    by_cases hl : a.toNat + 1 = 65536
    · obtain rfl : n = 0 := by unfold wordsLeft at hn; omega
      rfl
    · have ha := toNat_succ hl
      rw [ih (a + 1#16) (by unfold wordsLeft at hn ⊢; omega) (fun b hb => h b (by omega))]

/-- PUTSP looks at no word below its start. -/
theorem putspScan_congr (mode : PutspHighByte) (m m' : Memory) : ∀ (n : Nat) (a : Word), wordsLeft a = n →
    (∀ b : Word, a.toNat ≤ b.toNat → m'.readWord b = m.readWord b) → putspScan mode m' n a = putspScan mode m n a := by
  intro n
  induction n with
  | zero => intro a _ _; rfl
  | succ n ih =>
    intro a hn h
    simp only [putspScan, h a (Nat.le_refl _)]
    by_cases hl : a.toNat + 1 = 65536
    · obtain rfl : n = 0 := by unfold wordsLeft at hn; omega
      rfl
    · have ha := toNat_succ hl
      rw [ih (a + 1#16) (by unfold wordsLeft at hn ⊢; omega) (fun b hb => h b (by omega))]

/-! ## The cycle -/

/-- A running machine runs the decoded instruction (30_encoding.md R77). -/
theorem step_of_running {s : State} (h : s.run = .running) : step s = exec (decodeWord s.fetch.1) s.fetch.2 := by
  simp [step, cycle, runCycle, h]

/-- A machine that does not run answers itself. -/
theorem step_of_not_running {s : State} (h : s.run ≠ .running) : step s = .next s := by
  unfold step cycle; cases hr : s.run <;> simp_all

/-- What an answer of exec can be: a next state, or the wait of GETC and IN. -/
theorem getcService_cases (s : State) :
    (∃ c s', s.consoleGetChar = some (c, s') ∧ getcService s = .next (s'.setReg .r0 (zextByte c))) ∨
    (s.consoleGetChar = none ∧ getcService s = .fault .waitingForKey) := by
  unfold getcService
  cases h : s.consoleGetChar with
  | none => exact .inr ⟨rfl, rfl⟩
  | some p => obtain ⟨c, s'⟩ := p; exact .inl ⟨c, s', rfl, rfl⟩

theorem inService_cases (s : State) :
    (∃ c s', (s.consolePutChars Config.inPrompt).consoleGetChar = some (c, s') ∧
      inService s = .next ((s'.consolePutChar c).setReg .r0 (zextByte c))) ∨
    ((s.consolePutChars Config.inPrompt).consoleGetChar = none ∧ inService s = .fault .waitingForKey) := by
  unfold inService
  cases h : (s.consolePutChars Config.inPrompt).consoleGetChar with
  | none => exact .inr ⟨rfl, rfl⟩
  | some p => obtain ⟨c, s'⟩ := p; exact .inl ⟨c, s', rfl, rfl⟩

/-! ## The Loader -/

/-- The words of an image's bytes, with or without an odd byte after them (70_reset_and_hazards.md R242, R244). -/
theorem imageWords_imageOf (ws : List Word) {odd : List Byte} (h : odd.length ≤ 1) : imageWords (imageOf ws ++ odd) = ws := by
  induction ws with
  | nil =>
    match odd, h with
    | [], _ => rfl
    | [_], _ => rfl
  | cons w ws ih => simp [imageOf, imageWords, ih]; exact wordOfBytes_hiByte_loByte w

/-- The Loader changes memory only. -/
theorem loadWords_frame (s : State) (a : Nat) (ws : List Word) :
    s.loadWords a ws = { s with mem := (s.loadWords a ws).mem } := by
  induction ws generalizing s a with
  | nil => rfl
  | cons w ws ih =>
    unfold State.loadWords
    split
    · rw [ih]; rfl
    · rfl

/-- Every word after the Loader has stored `ws` from `a` on: those past 0xFFFF are at no address. -/
theorem rawRead_loadWords (s : State) (a : Nat) (ws : List Word) (b : Word) :
    (s.loadWords a ws).rawRead b = if a ≤ b.toNat then (ws[b.toNat - a]?).getD (s.rawRead b) else s.rawRead b := by
  induction ws generalizing s a with
  | nil => simp [State.loadWords]
  | cons w ws ih =>
    unfold State.loadWords
    split
    · next ha =>
      rw [ih, rawRead_poke]
      by_cases h1 : b.toNat = a
      · have hb : b = BitVec.ofNat 16 a := by apply BitVec.eq_of_toNat_eq; simp [h1]; omega
        subst hb
        rw [if_neg (by omega), if_pos rfl, if_pos (by omega)]
        simp [h1]
      · have hne : b ≠ BitVec.ofNat 16 a := by rintro rfl; simp at h1; omega
        rw [if_neg hne]
        by_cases h2 : a ≤ b.toNat
        · rw [if_pos (by omega), if_pos h2, show b.toNat - a = (b.toNat - (a + 1)) + 1 by omega]; simp
        · rw [if_neg (by omega), if_neg h2]
    · next ha => have := b.isLt; rw [if_neg (by omega)]

/-- The words past 0xFFFF make no difference (R243). -/
theorem loadWords_take (s : State) {a n : Nat} (ws : List Word) (h : n = 65536 - a) :
    s.loadWords a (ws.take n) = s.loadWords a ws := by
  induction ws generalizing s a n with
  | nil => simp
  | cons w ws ih =>
    by_cases ha : a < 65536
    · obtain ⟨m, rfl⟩ : ∃ m, n = m + 1 := ⟨n - 1, by omega⟩
      simp only [List.take_succ_cons, State.loadWords, ha, if_true]
      exact ih _ (by omega)
    · obtain rfl : n = 0 := by omega
      simp [State.loadWords, ha]

theorem wf_loadWords {s : State} (a : Nat) (ws : List Word) (h : s.mem.wf = true) : (s.loadWords a ws).mem.wf = true := by
  induction ws generalizing s a with
  | nil => exact h
  | cons w ws ih =>
    unfold State.loadWords
    split
    · exact ih _ (wf_writeWord _ _ h)
    · exact h

end Sys2Proof.Machine
end

