-- ==== Sys2Proof/Laws/PerInstr.lean ====
section
/-! SUPPORT. The family RowMatch: the canonical word of each well-formed instruction matches its own row of spec/opcode_table.json. -/

namespace Sys2Proof.Laws

/-- The word of a well-formed instruction is its row's match under its row's mask. -/
def RowMatch.Statement (i : Instr) : Prop := i.wellFormed = true → encode i &&& i.rowMask = i.rowMatch

theorem RowMatch.addReg (dr : Reg) (sr1 : Reg) (sr2 : Reg) : RowMatch.Statement (.addReg dr sr1 sr2) :=
  fun _ => (formatOpr_and_mask _ _ _ _).trans rfl

theorem RowMatch.addImm (dr : Reg) (sr1 : Reg) (imm5 : BitVec 5) : RowMatch.Statement (.addImm dr sr1 imm5) :=
  fun _ => (formatOpi_and_mask _ _ _ _).trans rfl

theorem RowMatch.andReg (dr : Reg) (sr1 : Reg) (sr2 : Reg) : RowMatch.Statement (.andReg dr sr1 sr2) :=
  fun _ => (formatOpr_and_mask _ _ _ _).trans rfl

theorem RowMatch.andImm (dr : Reg) (sr1 : Reg) (imm5 : BitVec 5) : RowMatch.Statement (.andImm dr sr1 imm5) :=
  fun _ => (formatOpi_and_mask _ _ _ _).trans rfl

theorem RowMatch.not (dr : Reg) (sr : Reg) : RowMatch.Statement (.not dr sr) :=
  fun _ => (formatNotf_and_mask _ _ _).trans rfl

theorem RowMatch.br (nzp : BitVec 3) (off9 : BitVec 9) : RowMatch.Statement (.br nzp off9) :=
  fun _ => (formatBrf_and_mask _ _ _).trans rfl

theorem RowMatch.jmp (baseR : Reg) : RowMatch.Statement (.jmp baseR) :=
  fun _ => (formatJmpf_and_mask _ _).trans rfl

theorem RowMatch.ret : RowMatch.Statement (.ret) :=
  fun _ => by decide

theorem RowMatch.jsr (off11 : BitVec 11) : RowMatch.Statement (.jsr off11) :=
  fun _ => (formatJsrf_and_mask _ _).trans rfl

theorem RowMatch.jsrr (baseR : Reg) : RowMatch.Statement (.jsrr baseR) :=
  fun _ => (formatJsrrf_and_mask _ _).trans rfl

theorem RowMatch.ld (dr : Reg) (off9 : BitVec 9) : RowMatch.Statement (.ld dr off9) :=
  fun _ => (formatPcr_and_mask _ _ _).trans rfl

theorem RowMatch.ldi (dr : Reg) (off9 : BitVec 9) : RowMatch.Statement (.ldi dr off9) :=
  fun _ => (formatPcr_and_mask _ _ _).trans rfl

theorem RowMatch.ldr (dr : Reg) (baseR : Reg) (off6 : BitVec 6) : RowMatch.Statement (.ldr dr baseR off6) :=
  fun _ => (formatBase_and_mask _ _ _ _).trans rfl

theorem RowMatch.lea (dr : Reg) (off9 : BitVec 9) : RowMatch.Statement (.lea dr off9) :=
  fun _ => (formatPcr_and_mask _ _ _).trans rfl

theorem RowMatch.st (sr : Reg) (off9 : BitVec 9) : RowMatch.Statement (.st sr off9) :=
  fun _ => (formatPcr_and_mask _ _ _).trans rfl

theorem RowMatch.sti (sr : Reg) (off9 : BitVec 9) : RowMatch.Statement (.sti sr off9) :=
  fun _ => (formatPcr_and_mask _ _ _).trans rfl

theorem RowMatch.str (sr : Reg) (baseR : Reg) (off6 : BitVec 6) : RowMatch.Statement (.str sr baseR off6) :=
  fun _ => (formatBase_and_mask _ _ _ _).trans rfl

theorem RowMatch.getc : RowMatch.Statement (.getc) :=
  fun _ => by decide

theorem RowMatch.out : RowMatch.Statement (.out) :=
  fun _ => by decide

theorem RowMatch.puts : RowMatch.Statement (.puts) :=
  fun _ => by decide

theorem RowMatch.inKey : RowMatch.Statement (.inKey) :=
  fun _ => by decide

theorem RowMatch.putsp : RowMatch.Statement (.putsp) :=
  fun _ => by decide

theorem RowMatch.halt : RowMatch.Statement (.halt) :=
  fun _ => by decide

theorem RowMatch.trap (vec : BitVec 8) : RowMatch.Statement (.trap vec) :=
  fun _ => (formatTrapf_and_mask _ _).trans rfl

theorem RowMatch.rti : RowMatch.Statement (.rti) :=
  fun _ => (formatNone_and_mask _).trans rfl

theorem RowMatch.res : RowMatch.Statement (.res) :=
  fun _ => (formatNone_and_mask _).trans rfl

end Sys2Proof.Laws
end

