-- ==== Sys2Proof/Laws/Trap.lean ====
section
/-! SUPPORT. The TRAP rows as a family: everything a trap that answers a next state can have done. -/

namespace Sys2Proof.Machine

theorem getcService_next {s t : State} (h : getcService s = .next t) :
    ∃ c s', s.consoleGetChar = some (c, s') ∧ t = s'.setReg .r0 (zextByte c) := by
  rcases getcService_cases s with ⟨c, s', h1, h2⟩ | ⟨_, h2⟩
  · rw [h2] at h; cases h; exact ⟨c, s', h1, rfl⟩
  · rw [h2] at h; cases h

theorem inService_next {s t : State} (h : inService s = .next t) :
    ∃ c s', (s.consolePutChars Config.inPrompt).consoleGetChar = some (c, s') ∧
      t = (s'.consolePutChar c).setReg .r0 (zextByte c) := by
  rcases inService_cases s with ⟨c, s', h1, h2⟩ | ⟨_, h2⟩
  · rw [h2] at h; cases h; exact ⟨c, s', h1, rfl⟩
  · rw [h2] at h; cases h

/-- What no service does, and what a service that reads no key leaves besides (43_trap.md R178). -/
structure TrapLeaves (s t : State) (prints readsKey : Bool) : Prop where
  pc : t.pc = s.pc
  cond : t.cond = s.cond
  mem : t.mem = s.mem
  regs : s.sameRegsBut t .r0
  out : ∃ bs, t.out = s.out ++ bs ∧ (prints = false → bs = [])
  quiet : readsKey = false → t.regs = s.regs ∧ t.keyboard = s.keyboard ∧ t.draws = s.draws
  run : readsKey = true → t.run = s.run
  param : t.putspHighByte = s.putspHighByte

theorem getcService_leaves {s t : State} (h : getcService s = .next t) (p : Bool) : TrapLeaves s t p true := by
  obtain ⟨c, s', h1, rfl⟩ := getcService_next h
  have hf := consoleGetChar_frame h1
  rw [hf]
  exact ⟨rfl, rfl, rfl, fun q hq => by simp [hq]; rfl, ⟨[], by simp, fun _ => rfl⟩, by simp, fun _ => rfl, rfl⟩

theorem inService_leaves {s t : State} (h : inService s = .next t) : TrapLeaves s t true true := by
  obtain ⟨c, s', h1, rfl⟩ := inService_next h
  have hf := consoleGetChar_frame h1
  rw [hf]
  exact ⟨rfl, rfl, rfl, fun q hq => by simp [hq]; rfl, ⟨_, List.append_assoc _ _ _, by simp⟩, by simp, fun _ => rfl, rfl⟩

theorem emitScan_leaves (s : State) (scan : StringScan) : TrapLeaves s (s.emitScan scan) true false := by
  rw [emitScan_eq]
  exact ⟨rfl, rfl, rfl, fun _ _ => rfl, ⟨_, rfl, by simp⟩, fun _ => ⟨rfl, rfl, rfl⟩, by simp, rfl⟩

theorem output_leaves (s : State) (bs : List Byte) (r : Run) :
    TrapLeaves s { s with out := s.out ++ bs, run := r } true false :=
  ⟨rfl, rfl, rfl, fun _ _ => rfl, ⟨bs, rfl, by simp⟩, fun _ => ⟨rfl, rfl, rfl⟩, by simp, rfl⟩

/-- Every trap row that answers a next state, by row or by vector (43_trap.md R170 to R178). -/
theorem trap_leaves {i : Instr} {s t : State} (hi : i.isTrap = true) (h : exec i s = .next t) :
    TrapLeaves s t i.mayPrint i.readsKey := by
  cases i <;> simp only [Instr.isTrap, Bool.false_eq_true] at hi
  case getc => exact getcService_leaves h _
  case inKey => exact inService_leaves h
  case out => cases h; exact output_leaves _ _ _
  case halt => cases h; exact output_leaves _ _ _
  case puts => cases h; exact emitScan_leaves _ _
  case putsp => cases h; exact emitScan_leaves _ _
  case trap v =>
    simp only [exec, execTrap, trapService] at h
    by_cases h20 : v = 0x20#8
    · subst h20; exact getcService_leaves h _
    by_cases h21 : v = 0x21#8
    · subst h21; cases h; exact output_leaves _ _ _
    by_cases h22 : v = 0x22#8
    · subst h22; cases h; exact emitScan_leaves _ _
    by_cases h23 : v = 0x23#8
    · subst h23; exact inService_leaves h
    by_cases h24 : v = 0x24#8
    · subst h24; cases h; exact emitScan_leaves _ _
    by_cases h25 : v = 0x25#8
    · subst h25; cases h; exact output_leaves _ _ _
    simp only [h20, h21, h22, h23, h24, h25, if_false, Host.Outcome.next.injEq] at h
    subst h
    exact ⟨rfl, rfl, rfl, fun _ _ => rfl, ⟨[], by simp, fun _ => rfl⟩, fun _ => ⟨rfl, rfl, rfl⟩, fun _ => rfl, rfl⟩

/-- A well-formed generic TRAP has a vector without a service, so it changes nothing (43_trap.md R177). -/
theorem exec_trap_of_wellFormed (v : BitVec 8) (s : State) (h : (Instr.trap v).wellFormed = true) :
    exec (.trap v) s = .next s := by
  have hn : trapService v = none := by revert v; decide
  simp [exec, execTrap, hn]

/-- PUTSP in a machine of either build (43_trap.md R175, R179). -/
theorem exec_putsp {s : State} {mode : PutspHighByte} (h : s.putspHighByte = mode) :
    exec .putsp s = .next (s.emitScan (putspScan mode s.mem (wordsLeft (s.reg .r0)) (s.reg .r0))) := by
  subst h; rfl

/-- No instruction writes the parameter PUTSP_HIGH_BYTE (log entry 16). -/
theorem exec_putspHighByte {i : Instr} {s t : State} (h : exec i s = .next t) : t.putspHighByte = s.putspHighByte := by
  by_cases ht : i.isTrap = true
  · exact (trap_leaves ht h).param
  · cases i <;> simp only [Instr.isTrap, not_true_eq_false] at ht
    case br nzp off9 => simp only [exec, execBr, Host.Outcome.next.injEq] at h; subst h; split <;> rfl
    all_goals
      cases h
      simp

end Sys2Proof.Machine
end

