-- ==== Sys2Proof/Tests/Slice0.lean ====
section
/-! SUPPORT. Tests. Expected values come from spec/: the formats of 30_encoding.md section 2 for the words written field by field,
the vectors V1 to V99 and L1 to L7 of 95_test_vectors.md for the steps; each test names its source. Then, for every statement
with hypotheses, a witness that meets them. -/

namespace Sys2Proof.Tests

open Sys2Proof Sys2Proof.Machine

/-! ## Small states -/

/-- The reset state with a word at an address and `pc` there: the start of a vector (95_test_vectors.md section 1). -/
def startAt (a w : Word) : State := ({ State.reset with pc := a }).poke a w

/-- A state with its condition code replaced. -/
def withCond (s : State) (c : Cond) : State := { s with cond := c }

/-- A state with its settled host draws replaced. -/
def withKeys (s : State) (ks : List (Option Byte)) : State := { s with keyboard := ks }

/-- A view of the next state of an answer. -/
def nextView {α : Type} (f : State → α) : Host.Outcome State Fault Refusal → Option α
  | .next t => some (f t)
  | .fault _ => none
  | .refused _ => none

/-- The view of a step: a register, COND and pc. -/
def regView (s : State) (r : Reg) : Option (Word × Cond × Word) := nextView (fun t => (t.reg r, t.cond, t.pc)) (step s)

/-- The view of a step: a word of memory, COND and pc. -/
def memView (s : State) (a : Word) : Option (Word × Cond × Word) := nextView (fun t => (t.rawRead a, t.cond, t.pc)) (step s)

/-- The view of a step: the output, run and pc. -/
def outView (s : State) : Option (List Byte × Run × Word) := nextView (fun t => (t.out, t.run, t.pc)) (step s)

/-- The view of a step: the host draws left and the two device cells. -/
def hostView (s : State) : Option (List (Option Byte) × Word × Word) :=
  nextView (fun t => (t.keyboard, t.rawRead Config.kbsr, t.rawRead Config.kbdr)) (step s)

/-! ## WellFormed: an ill-formed term for each check, and the values beside it -/

theorem test_jmp_r7_ill_formed : (Instr.jmp .r7).wellFormed = false ∧ (Instr.jmp .r6).wellFormed = true := by decide
theorem test_service_vectors_ill_formed :
    (Instr.trap 0x20#8).wellFormed = false ∧ (Instr.trap 0x25#8).wellFormed = false ∧
    (Instr.trap 0x1F#8).wellFormed = true ∧ (Instr.trap 0x26#8).wellFormed = true := by decide

/-! ## Decoding: one word per constructor, field by field from 30_encoding.md section 2 and the opcode numbers of its section 1 -/

theorem test_decode_addReg : decodeWord (0b0001#4 ++ 0b010#3 ++ 0b101#3 ++ 0b0#1 ++ 0b00#2 ++ 0b110#3) = .addReg .r2 .r5 .r6 := by decide
theorem test_decode_addImm : decodeWord (0b0001#4 ++ 0b001#3 ++ 0b100#3 ++ 0b1#1 ++ 0b10001#5) = .addImm .r1 .r4 0b10001#5 := by decide
theorem test_decode_andReg : decodeWord (0b0101#4 ++ 0b011#3 ++ 0b001#3 ++ 0b0#1 ++ 0b11#2 ++ 0b010#3) = .andReg .r3 .r1 .r2 := by decide
theorem test_decode_andImm : decodeWord (0b0101#4 ++ 0b111#3 ++ 0b000#3 ++ 0b1#1 ++ 0b01110#5) = .andImm .r7 .r0 0b01110#5 := by decide
theorem test_decode_not : decodeWord (0b1001#4 ++ 0b011#3 ++ 0b010#3 ++ 0b111111#6) = .not .r3 .r2 := by decide
theorem test_decode_br : decodeWord (0b0000#4 ++ 0b110#3 ++ 0b100000001#9) = .br 0b110#3 0b100000001#9 := by decide
theorem test_decode_jmp : decodeWord (0b1100#4 ++ 0b000#3 ++ 0b010#3 ++ 0b000000#6) = .jmp .r2 := by decide
theorem test_decode_ret : decodeWord (0b1100#4 ++ 0b000#3 ++ 0b111#3 ++ 0b000000#6) = .ret := by decide
theorem test_decode_jsr : decodeWord (0b0100#4 ++ 0b1#1 ++ 0b10000000011#11) = .jsr 0b10000000011#11 := by decide
theorem test_decode_jsrr : decodeWord (0b0100#4 ++ 0b0#1 ++ 0b00#2 ++ 0b011#3 ++ 0b000000#6) = .jsrr .r3 := by decide
theorem test_decode_ld : decodeWord (0b0010#4 ++ 0b101#3 ++ 0b000000111#9) = .ld .r5 7#9 := by decide
theorem test_decode_ldi : decodeWord (0b1010#4 ++ 0b100#3 ++ 0b000000110#9) = .ldi .r4 6#9 := by decide
theorem test_decode_ldr : decodeWord (0b0110#4 ++ 0b010#3 ++ 0b110#3 ++ 0b100001#6) = .ldr .r2 .r6 0b100001#6 := by decide
theorem test_decode_lea : decodeWord (0b1110#4 ++ 0b110#3 ++ 0b000001100#9) = .lea .r6 12#9 := by decide
theorem test_decode_st : decodeWord (0b0011#4 ++ 0b010#3 ++ 0b000000011#9) = .st .r2 3#9 := by decide
theorem test_decode_sti : decodeWord (0b1011#4 ++ 0b011#3 ++ 0b000000101#9) = .sti .r3 5#9 := by decide
theorem test_decode_str : decodeWord (0b0111#4 ++ 0b011#3 ++ 0b110#3 ++ 0b000010#6) = .str .r3 .r6 2#6 := by decide
theorem test_decode_getc : decodeWord (0b1111#4 ++ 0b0000#4 ++ 0b00100000#8) = .getc := by decide
theorem test_decode_out : decodeWord (0b1111#4 ++ 0b0000#4 ++ 0b00100001#8) = .out := by decide
theorem test_decode_puts : decodeWord (0b1111#4 ++ 0b0000#4 ++ 0b00100010#8) = .puts := by decide
theorem test_decode_inKey : decodeWord (0b1111#4 ++ 0b0000#4 ++ 0b00100011#8) = .inKey := by decide
theorem test_decode_putsp : decodeWord (0b1111#4 ++ 0b0000#4 ++ 0b00100100#8) = .putsp := by decide
theorem test_decode_halt : decodeWord (0b1111#4 ++ 0b0000#4 ++ 0b00100101#8) = .halt := by decide
theorem test_decode_trap : decodeWord (0b1111#4 ++ 0b1010#4 ++ 0b00100110#8) = .trap 0x26#8 := by decide
theorem test_decode_rti : decodeWord (0b1000#4 ++ 0b000000000001#12) = .rti := by decide
theorem test_decode_res : decodeWord (0b1101#4 ++ 0b101010111100#12) = .res := by decide

/-- 30_encoding.md section 1: an instruction is one word; 20_memory.md section 3: its high byte comes first. -/
theorem test_decodeBytes :
    decodeBytes [0x10#8, 0x42#8, 0xAA#8] = .instr (.addReg .r0 .r1 .r2) [0xAA#8] ∧
    decodeBytes [0x10#8] = .rejected .truncated ∧ decodeBytes [] = .rejected .truncated := by decide

/-- A table row of one word reads, and one of more bits has no instruction. -/
theorem test_decodeTableWord : decodeTableWord 16 0x1042 = some (.addReg .r0 .r1 .r2) ∧ decodeTableWord 24 0x1042 = none := by decide

/-! ## One step: the vectors of 95_test_vectors.md section 3 -/

/-- V2. -/
theorem test_add_signed_overflow :
    regView (((startAt 0x3000#16 0x1042#16).setReg .r1 0x7FFF#16).setReg .r2 0x0001#16) .r0 = some (0x8000#16, .n, 0x3001#16) := by decide

/-- V5: DR = SR1 = SR2. -/
theorem test_add_in_place :
    regView ((startAt 0x3000#16 0x1241#16).setReg .r1 0x4001#16) .r1 = some (0x8002#16, .n, 0x3001#16) := by decide

/-- V7. -/
theorem test_add_imm_minus_one :
    regView (withCond ((startAt 0x3000#16 0x127F#16).setReg .r1 0x0001#16) .p) .r1 = some (0x0000#16, .z, 0x3001#16) := by decide

/-- V8. -/
theorem test_add_imm_minimum :
    regView (startAt 0x3000#16 0x1070#16) .r0 = some (0xFFF0#16, .n, 0x3001#16) := by decide

/-- V11. -/
theorem test_and_reg :
    regView (((startAt 0x3000#16 0x5642#16).setReg .r1 0x00FF#16).setReg .r2 0x0F0F#16) .r3 = some (0x000F#16, .p, 0x3001#16) := by decide

/-- V15: imm5 is sign-extended. -/
theorem test_and_imm_mask :
    regView ((startAt 0x3000#16 0x54B0#16).setReg .r2 0x123F#16) .r2 = some (0x1230#16, .p, 0x3001#16) := by decide

/-- V14. -/
theorem test_and_imm_minus_one :
    regView ((startAt 0x3000#16 0x54BF#16).setReg .r2 0xBEEF#16) .r2 = some (0xBEEF#16, .n, 0x3001#16) := by decide

/-- V18. -/
theorem test_not_of_8000 :
    regView ((startAt 0x3000#16 0x96BF#16).setReg .r2 0x8000#16) .r3 = some (0x7FFF#16, .p, 0x3001#16) := by decide

/-- V19. -/
theorem test_not_ignores_low_bits :
    regView ((startAt 0x3000#16 0x9680#16).setReg .r2 0x0009#16) .r3 = some (0xFFF6#16, .n, 0x3001#16) := by decide

/-- V21 and V24: the offset is signed, from the incremented pc, and wraps. -/
theorem test_br_minimum_offset :
    nextView State.pc (step (startAt 0x3000#16 0x0F00#16)) = some 0x2F01#16 ∧
    nextView State.pc (step (startAt 0xFFFF#16 0x0E01#16)) = some 0x0001#16 := by decide

/-- The BR table: nzp = 001 and 100 against N and P. -/
theorem test_br_masks :
    nextView State.pc (step (withCond (startAt 0x3000#16 0x0805#16) .n)) = some 0x3006#16 ∧
    nextView State.pc (step (withCond (startAt 0x3000#16 0x0805#16) .p)) = some 0x3001#16 ∧
    nextView State.pc (step (withCond (startAt 0x3000#16 0x0205#16) .p)) = some 0x3006#16 ∧
    nextView State.pc (step (withCond (startAt 0x3000#16 0x0205#16) .n)) = some 0x3001#16 := by decide

/-- V30. -/
theorem test_jmp_ignores_bits :
    nextView State.pc (step ((startAt 0x3000#16 0xCEBF#16).setReg .r2 0x4000#16)) = some 0x4000#16 := by decide

/-- V29. -/
theorem test_ret :
    nextView State.pc (step ((startAt 0x3004#16 0xC1C0#16).setReg .r7 0x3100#16)) = some 0x3100#16 := by decide

/-- V32. -/
theorem test_jsr :
    regView (startAt 0x3003#16 0x4804#16) .r7 = some (0x3004#16, .z, 0x3008#16) := by decide

/-- V33. -/
theorem test_jsr_minimum :
    regView (startAt 0x3000#16 0x4C00#16) .r7 = some (0x3001#16, .z, 0x2C01#16) := by decide

/-- V37. -/
theorem test_jsrr :
    regView ((startAt 0x3010#16 0x40C0#16).setReg .r3 0x5000#16) .r7 = some (0x3011#16, .z, 0x5000#16) := by decide

/-- V38: R7 is written first. -/
theorem test_jsrr_r7 :
    regView ((startAt 0x3000#16 0x41C0#16).setReg .r7 0x6000#16) .r7 = some (0x3001#16, .z, 0x3001#16) := by decide

/-- V41. -/
theorem test_ld :
    regView ((startAt 0x3000#16 0x2001#16).poke 0x3002#16 0x8001#16) .r0 = some (0x8001#16, .n, 0x3001#16) := by decide

/-- V44. -/
theorem test_ld_kbsr_key :
    regView (withKeys (startAt 0xFDFF#16 0x2000#16) [some 0x41#8]) .r0 = some (0x8000#16, .n, 0xFE00#16) ∧
    hostView (withKeys (startAt 0xFDFF#16 0x2000#16) [some 0x41#8]) = some ([], 0x8000#16, 0x0041#16) := by decide

/-- V46. -/
theorem test_ldi :
    regView (((startAt 0x3005#16 0xA806#16).poke 0x300C#16 0x300D#16).poke 0x300D#16 0x0005#16) .r4 = some (0x0005#16, .p, 0x3006#16) := by decide

/-- V48. -/
theorem test_ldi_pointer_is_kbsr :
    regView (withKeys ((startAt 0xFDFF#16 0xA000#16).poke 0x0000#16 0x1234#16) [none]) .r0 = some (0x1234#16, .p, 0xFE00#16) := by decide

/-- V52: DR = BaseR. -/
theorem test_ldr_in_place :
    regView (((startAt 0x3000#16 0x6D81#16).setReg .r6 0x4000#16).poke 0x4001#16 0x7777#16) .r6 = some (0x7777#16, .p, 0x3001#16) := by decide

/-- V54. -/
theorem test_ldr_minimum :
    regView (((startAt 0x3000#16 0x63A0#16).setReg .r6 0x4020#16).poke 0x4000#16 0x0011#16) .r1 = some (0x0011#16, .p, 0x3001#16) := by decide

/-- V58. -/
theorem test_lea_wraps :
    regView (withCond ((startAt 0xFFFF#16 0xE000#16).setReg .r0 0x0009#16) .p) .r0 = some (0x0000#16, .z, 0x0000#16) := by decide

/-- V59. -/
theorem test_lea_does_not_poll :
    hostView (withKeys (startAt 0xFD00#16 0xE0FF#16) [some 0x41#8]) = some ([some 0x41#8], 0x0000#16, 0x0000#16) := by decide

/-- V62. -/
theorem test_st :
    memView (withCond ((startAt 0x3006#16 0x3403#16).setReg .r2 0x8000#16) .p) 0x300A#16 = some (0x8000#16, .p, 0x3007#16) := by decide

/-- V61. -/
theorem test_st_to_kbsr :
    hostView (withKeys ((startAt 0xFDFF#16 0x3000#16).setReg .r0 0x1234#16) [some 0x41#8]) = some ([some 0x41#8], 0x1234#16, 0x0000#16) := by decide

/-- V63. -/
theorem test_sti :
    memView (((startAt 0x3006#16 0xB605#16).setReg .r3 0xFFFC#16).poke 0x300C#16 0x300D#16) 0x300D#16 = some (0xFFFC#16, .z, 0x3007#16) := by decide

/-- V64. -/
theorem test_sti_pointer_is_kbsr :
    memView (withKeys ((startAt 0xFDFF#16 0xB000#16).setReg .r0 0x1234#16) [some 0x41#8]) 0x8000#16 = some (0x1234#16, .z, 0xFE00#16) := by decide

/-- V66: SR = BaseR. -/
theorem test_str_in_place :
    memView ((startAt 0x3000#16 0x7D81#16).setReg .r6 0x4000#16) 0x4001#16 = some (0x4000#16, .z, 0x3001#16) := by decide

/-- V67. -/
theorem test_str_wraps :
    memView (((startAt 0x3000#16 0x7381#16).setReg .r1 0xABCD#16).setReg .r6 0xFFFF#16) 0x0000#16 = some (0xABCD#16, .z, 0x3001#16) := by decide

/-- V70, after a wait without a key (log entry 10). -/
theorem test_getc :
    regView (withKeys (startAt 0x3000#16 0xF020#16) [none, some 0xFF#8]) .r0 = some (0x00FF#16, .z, 0x3001#16) := by decide

/-- V71. -/
theorem test_getc_leaves_devices :
    hostView (withKeys (((startAt 0x3000#16 0xF020#16).poke 0xFE00#16 0x1111#16).poke 0xFE02#16 0x2222#16) [some 0x41#8]) =
      some ([], 0x1111#16, 0x2222#16) := by decide

/-- V72. -/
theorem test_out :
    outView ((startAt 0x3000#16 0xF021#16).setReg .r0 0x1241#16) = some ([0x41#8], .running, 0x3001#16) := by decide

/-- V76. -/
theorem test_puts :
    outView (((((startAt 0x3000#16 0xF022#16).setReg .r0 0x4000#16).poke 0x4000#16 0x1241#16).poke 0x4001#16 0x0100#16).poke 0x4002#16 0x0042#16) =
      some ([0x41#8, 0x00#8, 0x42#8], .running, 0x3001#16) := by decide

/-- V79. -/
theorem test_puts_past_end :
    outView (((((startAt 0x3000#16 0xF022#16).setReg .r0 0xFFFE#16).poke 0x0000#16 0x0043#16).poke 0xFFFE#16 0x0041#16).poke 0xFFFF#16 0x0042#16) =
      some ([0x41#8, 0x42#8], .aborted .stringPastEnd, 0x3001#16) := by decide

/-- V80: the prompt is an open parameter, so the output is stated with it. -/
theorem test_in :
    outView (withKeys (startAt 0x3000#16 0xF023#16) [some 0x79#8]) = some (Config.inPrompt ++ [0x79#8], .running, 0x3001#16) := rfl

/-- V80: R0. -/
theorem test_in_register :
    regView (withKeys (startAt 0x3000#16 0xF023#16) [some 0x79#8]) .r0 = some (0x0079#16, .z, 0x3001#16) := rfl

/-- V82. -/
theorem test_putsp_logical :
    outView ((((startAt 0x3000#16 0xF024#16).setReg .r0 0x4000#16).poke 0x4000#16 0x4241#16).poke 0x4001#16 0x0043#16) =
      some ([0x41#8, 0x01#8, 0x43#8], .running, 0x3001#16) := by decide

/-- V81 and V84: the Byte build, stepped. -/
theorem test_putsp_byte :
    outView (((((startAt 0x3000#16 0xF024#16).withPutspHighByte .byte).setReg .r0 0x4000#16).poke 0x4000#16 0x4241#16).poke 0x4001#16 0x0043#16) =
      some ([0x41#8, 0x42#8, 0x43#8], .running, 0x3001#16) ∧
    outView ((((startAt 0x3000#16 0xF024#16).withPutspHighByte .byte).setReg .r0 0x4000#16).poke 0x4000#16 0x4100#16) =
      some ([0x00#8, 0x41#8], .running, 0x3001#16) := by decide

/-- V88: bits 11..8 are ignored; the message is an open parameter. -/
theorem test_halt :
    outView (startAt 0x3000#16 0xFF25#16) = some (Config.haltMessage, .halted, 0x3001#16) := rfl

/-- V89. -/
theorem test_unknown_vector :
    step ((startAt 0x3000#16 0xF026#16).setReg .r0 0x0041#16) =
      .next (((startAt 0x3000#16 0xF026#16).setReg .r0 0x0041#16).setPc 0x3001#16) := rfl

/-- V92. -/
theorem test_trap_leaves_r7 :
    regView (((startAt 0x3000#16 0xF021#16).setReg .r0 0x0041#16).setReg .r7 0x1234#16) .r7 = some (0x1234#16, .z, 0x3001#16) := by decide

/-- V94. -/
theorem test_rti :
    outView (startAt 0x3000#16 0x8FFF#16) = some ([], .aborted (.fatalOpcode .rti), 0x3001#16) := by decide

/-- V95. -/
theorem test_res :
    outView (startAt 0x3000#16 0xD000#16) = some ([], .aborted (.fatalOpcode .res), 0x3001#16) := by decide

/-- V97. -/
theorem test_fetch_from_kbsr_key :
    outView (withKeys (startAt 0xFE00#16 0x1234#16) [some 0x41#8]) = some ([], .aborted (.fatalOpcode .rti), 0xFE01#16) ∧
    hostView (withKeys (startAt 0xFE00#16 0x1234#16) [some 0x41#8]) = some ([], 0x8000#16, 0x0041#16) := by decide

/-- V98. -/
theorem test_fetch_from_kbsr_no_key :
    outView (withKeys (startAt 0xFE00#16 0x1234#16) [none]) = some ([], .running, 0xFE01#16) ∧
    hostView (withKeys (startAt 0xFE00#16 0x1234#16) [none]) = some ([], 0x0000#16, 0x0000#16) := by decide

/-- V99. -/
theorem test_fetch_wraps :
    outView (startAt 0xFFFF#16 0x0000#16) = some ([], .running, 0x0000#16) := by decide

/-- The placed word is the next one run, from reset and from an aborted machine at KBSR. -/
theorem test_withFetchWord :
    regView (State.reset.withFetchWord 16 0x1070) .r0 = some (0xFFF0#16, .n, 0x3001#16) ∧
    regView (State.withFetchWord { State.reset with pc := 0xFE00#16, run := .aborted .stringPastEnd } 16 0x1070) .r0 =
      some (0xFFF0#16, .n, 0x3001#16) := by decide

/-! ## The Loader: the vectors of 95_test_vectors.md section 4 -/

/-- Two words of memory after an image is loaded into the reset state, and pc. -/
def bootView (image : List Byte) (a b : Word) : Option (Word × Word × Word) :=
  (boot image).map (fun s => (s.rawRead a, s.rawRead b, s.pc))

/-- L1 and L3. -/
theorem test_load :
    bootView [0x30#8, 0x00#8, 0x12#8, 0x34#8, 0xAB#8, 0xCD#8] 0x3000#16 0x3001#16 = some (0x1234#16, 0xABCD#16, 0x3000#16) ∧
    bootView [0x30#8, 0x00#8, 0x12#8, 0x34#8, 0x56#8] 0x3000#16 0x3001#16 = some (0x1234#16, 0x0000#16, 0x3000#16) := by decide

/-- L2. -/
theorem test_load_truncates :
    bootView [0xFF#8, 0xFE#8, 0x00#8, 0x01#8, 0x00#8, 0x02#8, 0x00#8, 0x03#8] 0xFFFF#16 0x0000#16 =
      some (0x0002#16, 0x0000#16, 0x3000#16) := by decide

/-- L5 and L7. -/
theorem test_load_corners :
    boot [0x30#8] = none ∧ boot [] = none ∧
    bootView [0xFE#8, 0x00#8, 0x12#8, 0x34#8, 0x00#8, 0x41#8] 0xFE00#16 0xFE01#16 = some (0x1234#16, 0x0041#16, 0x3000#16) := by
  decide

/-! ## Witnesses: for every statement with hypotheses, states and operands that meet them -/

/-- A machine running the word at 0x3000. -/
def running (w : Word) : State := startAt 0x3000#16 w

/-- A string of two words at 0x4000 with R0 there. -/
def stringState : State := ((State.reset.setReg .r0 0x4000#16).poke 0x4000#16 0x4241#16).poke 0x4001#16 0x4443#16

/-- A word with R0 there, filling memory to 0xFFFF. -/
def endState : State := (State.reset.setReg .r0 0xFFFF#16).poke 0xFFFF#16 0x4241#16

theorem test_witness_StepKeepsInvariant :
    (running 0x3200#16).Inv ∧ (running 0x3200#16).mem ≠ [] ∧ ∃ t, step (running 0x3200#16) = .next t :=
  ⟨rfl, by decide, _, rfl⟩
theorem test_witness_DecodeOfEncode :
    (Instr.jmp .r6).wellFormed = true ∧ (Instr.trap 0x1F#8).wellFormed = true ∧ (Instr.trap 0x26#8).wellFormed = true ∧
    (Instr.ldr .r7 .r0 0b100000#6).wellFormed = true := by decide
theorem test_witness_DontCareBitsIgnored :
    (0x1042#16 : Word) ≠ 0x105A#16 ∧
    0x1042#16 &&& (decodeWord 0x1042#16).careMask = 0x105A#16 &&& (decodeWord 0x1042#16).careMask ∧
    0xC1C0#16 &&& (decodeWord 0xC1C0#16).careMask = 0xCFFF#16 &&& (decodeWord 0xC1C0#16).careMask ∧
    0xF025#16 &&& (decodeWord 0xF025#16).careMask = 0xFF25#16 &&& (decodeWord 0xF025#16).careMask := by decide
theorem test_witness_StepRunsTheDecodedInstruction :
    (startAt 0xFDFF#16 0x1042#16).run = .running ∧ (startAt 0xFDFF#16 0x1042#16).pc ≠ 0xFE00#16 ∧
    (startAt 0xFE00#16 0x1042#16).run = .running := by decide
theorem test_witness_TerminalStatesStay :
    (State.reset.enterHalted).run = .halted ∧ (State.reset.raiseFatal .stringPastEnd).run = .aborted .stringPastEnd := by decide
theorem test_witness_OnlyHaltHaltsOnlyFatalsAbort :
    (running 0xF025#16).run = .running ∧ (running 0xF025#16).nextInstr = .halt ∧ (∃ t, step (running 0xF025#16) = .next t) ∧
    (running 0x8000#16).nextInstr = .rti ∧ (∃ t, step (running 0x8000#16) = .next t) ∧
    (running 0xD000#16).nextInstr = .res ∧ (∃ t, step (running 0xD000#16) = .next t) ∧
    ∃ t, step (((running 0xF022#16).setReg .r0 0xFFFF#16).poke 0xFFFF#16 0x0041#16) = .next t ∧
      t.run = .aborted .stringPastEnd :=
  ⟨rfl, rfl, ⟨_, rfl⟩, rfl, ⟨_, rfl⟩, rfl, ⟨_, rfl⟩, _, rfl, by decide⟩
theorem test_witness_AbortsArePrecise :
    (∃ t, exec .rti State.reset = .next t ∧ t.run = .aborted (.fatalOpcode .rti)) ∧
    (∃ t, exec .res State.reset = .next t ∧ t.run = .aborted (.fatalOpcode .res)) ∧
    (∃ t, exec .puts endState = .next t ∧ t.run = .aborted .stringPastEnd) ∧
    (∃ t, exec .putsp endState = .next t ∧ t.run = .aborted .stringPastEnd) ∧
    State.reset.run = .running ∧ endState.run = .running :=
  ⟨⟨_, rfl, rfl⟩, ⟨_, rfl, rfl⟩, ⟨_, rfl, by decide⟩, ⟨_, rfl, by decide⟩, rfl, rfl⟩
theorem test_witness_NoStepPollsTwice :
    (running 0x2001#16).nextInstr ≠ .getc ∧ (running 0x2001#16).nextInstr ≠ .inKey ∧
    (∃ t, step (running 0x2001#16) = .next t) ∧
    (withKeys (startAt 0xFE00#16 0x0000#16) [some 0x41#8]).nextInstr = .rti ∧
    ∃ t, step (withKeys (startAt 0xFE00#16 0x0000#16) [some 0x41#8]) = .next t :=
  ⟨by decide, by decide, ⟨_, rfl⟩, by decide, _, rfl⟩
/-- An STR with R6 = 0x3000 and offset 1, and an STI whose pointer holds 0x3001. -/
theorem test_witness_StoreIsSeenByTheNextFetch :
    ((running 0x3400#16).run = .running ∧ (running 0x3400#16).pc ≠ 0xFE00#16 ∧ (running 0x3400#16).pc + 1#16 ≠ 0xFE00#16 ∧
      decodeWord ((running 0x3400#16).rawRead (running 0x3400#16).pc) = .st .r2 0#9 ∧
      (running 0x3400#16).pc + 1#16 + sext 0#9 = (running 0x3400#16).pc + 1#16) ∧
    (decodeWord ((running 0x7581#16).rawRead (running 0x7581#16).pc) = .str .r2 .r6 1#6 ∧
      ((running 0x7581#16).setReg .r6 0x3000#16).reg .r6 + sext 1#6 = (running 0x7581#16).pc + 1#16) ∧
    (decodeWord ((running 0xB405#16).rawRead (running 0xB405#16).pc) = .sti .r2 5#9 ∧
      ((running 0xB405#16).poke 0x3006#16 0x3001#16).wordAfterRead (0x3001#16 + sext 5#9) (0x3001#16 + sext 5#9) = 0x3001#16) := by decide
theorem test_witness_MemoryWritesReadBackAndCommute :
    (0xFE00#16 : Word) ≠ 0xFE02#16 ∧ (running 0x1200#16).mem.wf = true ∧ (running 0x1200#16).mem ≠ [] := by decide
theorem test_witness_EqualMemoriesAreEqualData :
    Memory.wf [(0x6000, 0x12#8)] = true ∧ Memory.wf [(131071, 0x01#8)] = true ∧
    ∀ a : Word, Memory.readWord [(0x6000, 0x12#8)] a = Memory.readWord [(0x6000, 0x12#8)] a :=
  ⟨by decide, by decide, fun _ => rfl⟩
theorem test_witness_ReadOfKbsrPolls :
    (withKeys State.reset [some 0x41#8]).nextPoll = some 0x41#8 ∧ (withKeys State.reset [none]).nextPoll = none ∧
    State.reset.keyboard = [] := by decide
theorem test_witness_OnlyKbsrReadsHaveEffects :
    (0xFDFF#16 : Word) ≠ 0xFE00#16 ∧ (0xFE01#16 : Word) ≠ 0xFE00#16 ∧ (0xFE02#16 : Word) ≠ 0xFE00#16 := by decide
theorem test_witness_KbdrReadIsPlain :
    (withKeys State.reset [some 0xFF#8, none]).nextPoll = some 0xFF#8 ∧
    (withKeys State.reset [none, some 0x41#8]).nextPoll = none := by decide
theorem test_witness_SevenInstructionsWriteCond :
    (Instr.lea .r0 0x100#9).flagDest = some .r0 ∧ (∃ t, exec (.lea .r0 0x100#9) State.reset = .next t) ∧
    (Instr.jsr 0#11).flagDest = none ∧ ∃ t, exec (.jsr 0#11) State.reset = .next t :=
  ⟨rfl, ⟨_, rfl⟩, rfl, _, rfl⟩
theorem test_witness_OnlyBrReadsCond :
    (∀ nzp off9, Instr.jsr 0#11 ≠ .br nzp off9) ∧ (∀ nzp off9, Instr.lea .r0 0#9 ≠ .br nzp off9) ∧
    (Instr.jsr 0#11).flagDest = none ∧ (Instr.lea .r0 0#9).flagDest ≠ none :=
  ⟨fun _ _ h => (by cases h), fun _ _ h => (by cases h), rfl, by decide⟩
theorem test_witness_OnlyFiveTrapsWriteOutput :
    Instr.getc.mayPrint = false ∧ (∃ t, exec .getc (withKeys State.reset [some 0x41#8]) = .next t) ∧
    Instr.out.mayPrint = true ∧ (∃ t, exec .out State.reset = .next t) ∧
    (Instr.trap 0x20#8).mayPrint = false ∧ (Instr.trap 0x21#8).mayPrint = true ∧ (Instr.trap 0x26#8).mayPrint = false :=
  ⟨rfl, ⟨_, rfl⟩, rfl, ⟨_, rfl⟩, by decide⟩
theorem test_witness_OnlyTransfersWritePc :
    Instr.puts.isTransfer = false ∧ ∃ t, exec .puts stringState = .next t :=
  ⟨rfl, _, rfl⟩
theorem test_witness_OnlyStoresAndPollsWriteMemory :
    (Instr.ld .r0 0#9).isStore = false ∧ (Instr.ld .r0 0#9).readsKey = false ∧
    ∃ t, exec (.ld .r0 0#9) State.reset = .next t ∧ t.keyboard = State.reset.keyboard ∧ t.draws = State.reset.draws :=
  ⟨rfl, rfl, _, rfl, by decide, by decide⟩
theorem test_witness_SignExtensionFillsHighBits :
    sext 0b10000#5 = 0xFFF0#16 ∧ sext 0b100000#6 = 0xFFE0#16 ∧ sext 0x0FF#9 = 0x00FF#16 ∧ sext 0x400#11 = 0xFC00#16 := by
  decide
/-- The words of the encoding clauses, at their smallest and largest don't-care and operand bits. -/
theorem test_witness_operate_words :
    0x1000#16 &&& 0xF020#16 = 0x1000#16 ∧ 0x1FDF#16 &&& 0xF020#16 = 0x1000#16 ∧
    0x1020#16 &&& 0xF020#16 = 0x1020#16 ∧ 0x1FFF#16 &&& 0xF020#16 = 0x1020#16 ∧
    0x5000#16 &&& 0xF020#16 = 0x5000#16 ∧ 0x5FDF#16 &&& 0xF020#16 = 0x5000#16 ∧
    0x5020#16 &&& 0xF020#16 = 0x5020#16 ∧ 0x5FFF#16 &&& 0xF020#16 = 0x5020#16 ∧
    0x9000#16 &&& 0xF000#16 = 0x9000#16 ∧ 0x9FFF#16 &&& 0xF000#16 = 0x9000#16 := by decide
theorem test_witness_control_words :
    0x0000#16 &&& 0xF000#16 = 0x0000#16 ∧ 0x0FFF#16 &&& 0xF000#16 = 0x0000#16 ∧
    0xC000#16 &&& 0xF000#16 = 0xC000#16 ∧ 0xCFFF#16 &&& 0xF000#16 = 0xC000#16 ∧
    0x4800#16 &&& 0xF800#16 = 0x4800#16 ∧ 0x4FFF#16 &&& 0xF800#16 = 0x4800#16 ∧
    0x4000#16 &&& 0xF800#16 = 0x4000#16 ∧ 0x47FF#16 &&& 0xF800#16 = 0x4000#16 := by decide
theorem test_witness_load_store_words :
    0x2000#16 &&& 0xF000#16 = 0x2000#16 ∧ 0x2FFF#16 &&& 0xF000#16 = 0x2000#16 ∧ 0x3FFF#16 &&& 0xF000#16 = 0x3000#16 ∧
    0x6FFF#16 &&& 0xF000#16 = 0x6000#16 ∧ 0x7FFF#16 &&& 0xF000#16 = 0x7000#16 ∧ 0xAFFF#16 &&& 0xF000#16 = 0xA000#16 ∧
    0xBFFF#16 &&& 0xF000#16 = 0xB000#16 ∧ 0xEFFF#16 &&& 0xF000#16 = 0xE000#16 := by decide
theorem test_witness_trap_and_fatal_words :
    0xFF20#16 &&& 0xF0FF#16 = 0xF020#16 ∧ 0xF021#16 &&& 0xF0FF#16 = 0xF021#16 ∧ 0xF122#16 &&& 0xF0FF#16 = 0xF022#16 ∧
    0xF223#16 &&& 0xF0FF#16 = 0xF023#16 ∧ 0xF424#16 &&& 0xF0FF#16 = 0xF024#16 ∧ 0xF825#16 &&& 0xF0FF#16 = 0xF025#16 ∧
    0x8FFF#16 &&& 0xF000#16 = 0x8000#16 ∧ 0xDFFF#16 &&& 0xF000#16 = 0xD000#16 := by decide
theorem test_witness_SubtractionByComplement : Reg.r1 ≠ Reg.r3 := by decide
theorem test_witness_JsrLinksAndBranches :
    ∃ t, exec (.jsr 4#11) State.reset = .next t ∧ t.reg .r7 = 0x3000#16 ∧ (State.reset.setReg .r7 0x3000#16).reg .r7 = t.reg .r7 :=
  ⟨_, rfl, rfl, rfl⟩
theorem test_witness_LdiLoadsIndirect :
    State.reset.memRead (State.reset.pc + sext 6#9) = (0x0000#16, State.reset) ∧
    ∃ p m, (withKeys State.reset [some 0x41#8]).memRead 0xFE00#16 = (p, m) ∧ p = 0x8000#16 ∧ m.keyboard = [] :=
  ⟨rfl, _, _, rfl, by decide, by decide⟩
theorem test_witness_StiStoresIndirect :
    ∃ p m, State.memRead (withKeys (startAt 0xFE00#16 0x1234#16) [none]) (0xFE00#16 + sext 0#9) = (p, m) ∧
      p = 0x0000#16 ∧ m.rawRead 0xFE00#16 = 0x0000#16 :=
  ⟨_, _, rfl, by decide, by decide⟩
theorem test_witness_StStores : State.reset.pc + sext 0x1FF#9 = 0x2FFF#16 := by decide
theorem test_witness_StrStores : (State.reset.setReg .r6 0xFFFF#16).reg .r6 + sext 1#6 = 0x0000#16 := by decide
theorem test_witness_GetcReadsAKey :
    (withKeys State.reset [some 0xFF#8]).keyboard = List.replicate 0 none ++ some 0xFF#8 :: [] ∧
    (withKeys State.reset [none, none, some 0x41#8, none]).keyboard = List.replicate 2 none ++ some 0x41#8 :: [none] ∧
    (∀ k ∈ (withKeys State.reset [none]).keyboard, k = none) ∧ ∀ k ∈ State.reset.keyboard, k = none :=
  ⟨rfl, rfl, by simp [withKeys], by simp [State.reset]⟩
theorem test_witness_InPromptsAndEchoes :
    (withKeys State.reset [none, some 0x79#8]).keyboard = List.replicate 1 none ++ some 0x79#8 :: [] ∧
    ∀ k ∈ (withKeys State.reset [none, none]).keyboard, k = none :=
  ⟨rfl, by simp [withKeys]⟩

/-- A string of two words, for the hypotheses of PUTS and PUTSP. -/
theorem stringState_is (k : Nat) (w : Word) (h : [0x4241#16, 0x4443#16][k]? = some w) :
    stringState.rawRead (stringState.reg .r0 + BitVec.ofNat 16 k) = w := by
  match k with
  | 0 => simp at h; subst h; decide
  | 1 => simp at h; subst h; decide
  | k + 2 => simp at h

theorem endState_is (k : Nat) (w : Word) (h : [0x4241#16][k]? = some w) :
    endState.rawRead (endState.reg .r0 + BitVec.ofNat 16 k) = w := by
  match k with
  | 0 => simp at h; subst h; decide
  | k + 1 => simp at h

theorem test_witness_PutsWritesString :
    ((∀ w ∈ [0x4241#16, 0x4443#16], w ≠ 0x0000#16) ∧ stringState.stringIs [0x4241#16, 0x4443#16] ∧
      stringState.stringEnd [0x4241#16, 0x4443#16] < 65536 ∧ stringState.wordAfterString [0x4241#16, 0x4443#16] = 0x0000#16) ∧
    (∀ w ∈ [0x4241#16], w ≠ 0x0000#16) ∧ endState.stringIs [0x4241#16] ∧ endState.stringEnd [0x4241#16] = 65536 :=
  ⟨⟨by simp, stringState_is, by decide, by decide⟩, by simp, endState_is, by decide⟩

/-- The same string with a word of high byte 0 after it. -/
def halfWordState : State := stringState.poke 0x4002#16 0x0045#16

theorem halfWordState_is (k : Nat) (w : Word) (h : [0x4241#16, 0x4443#16][k]? = some w) :
    halfWordState.rawRead (halfWordState.reg .r0 + BitVec.ofNat 16 k) = w := by
  match k with
  | 0 => simp at h; subst h; decide
  | 1 => simp at h; subst h; decide
  | k + 2 => simp at h

theorem test_witness_PutspWritesPackedString :
    (stringState.putspHighByte = .logical ∧ (∀ w ∈ [0x4241#16, 0x4443#16], w.extractLsb 15 8 ≠ 0x00#8) ∧ stringState.stringIs [0x4241#16, 0x4443#16] ∧
      stringState.stringEnd [0x4241#16, 0x4443#16] < 65536 ∧ stringState.wordAfterString [0x4241#16, 0x4443#16] = 0x0000#16) ∧
    (halfWordState.putspHighByte = .logical ∧ halfWordState.stringIs [0x4241#16, 0x4443#16] ∧ halfWordState.stringEnd [0x4241#16, 0x4443#16] < 65536 ∧
      halfWordState.wordAfterString [0x4241#16, 0x4443#16] ≠ 0x0000#16 ∧
      (halfWordState.wordAfterString [0x4241#16, 0x4443#16]).extractLsb 15 8 = 0x00#8) ∧
    (∀ w ∈ [0x4241#16], w.extractLsb 15 8 ≠ 0x00#8) ∧ endState.stringIs [0x4241#16] ∧ endState.stringEnd [0x4241#16] = 65536 :=
  ⟨⟨rfl, by simp, stringState_is, by decide, by decide⟩, ⟨rfl, halfWordState_is, by decide, by decide, by decide⟩,
    by simp, endState_is, by decide⟩

/-- A running Byte build at a fetched PUTSP, its string one word of high byte 0x01 and one of high byte 0x00. -/
def oneByteState : State :=
  (((running 0xF024#16).setReg .r0 0x4000#16).poke 0x4000#16 0x0141#16).poke 0x4001#16 0x0042#16

theorem oneByteState_is (k : Nat) (w : Word) (h : [0x0141#16][k]? = some w) :
    oneByteState.rawRead (oneByteState.reg .r0 + BitVec.ofNat 16 k) = w := by
  match k with
  | 0 => simp at h; subst h; decide
  | k + 1 => simp at h

theorem test_witness_PutspByteReading :
    (((stringState.withPutspHighByte .byte).putspHighByte = .byte ∧ (stringState.withPutspHighByte .byte).stringIs [0x4241#16, 0x4443#16] ∧
      (stringState.withPutspHighByte .byte).stringEnd [0x4241#16, 0x4443#16] < 65536 ∧
      (stringState.withPutspHighByte .byte).wordAfterString [0x4241#16, 0x4443#16] = 0x0000#16) ∧
    ((halfWordState.withPutspHighByte .byte).stringIs [0x4241#16, 0x4443#16] ∧
      (halfWordState.withPutspHighByte .byte).wordAfterString [0x4241#16, 0x4443#16] = 0x0045#16) ∧
    (endState.withPutspHighByte .byte).stringIs [0x4241#16] ∧ (endState.withPutspHighByte .byte).stringEnd [0x4241#16] = 65536) ∧
    ((∀ w ∈ [0x0141#16], w.extractLsb 15 8 = 0x01#8) ∧ oneByteState.stringIs [0x0141#16] ∧
      oneByteState.stringEnd [0x0141#16] < 65536 ∧ (oneByteState.wordAfterString [0x0141#16]).extractLsb 15 8 = 0x00#8 ∧
      oneByteState.nextInstr = .putsp) ∧
    ∃ t, step (oneByteState.withPutspHighByte .byte) = .next t :=
  ⟨⟨⟨rfl, stringState_is, by decide, by decide⟩, ⟨halfWordState_is, by decide⟩, endState_is, by decide⟩,
    ⟨by simp, oneByteState_is, by decide, by decide, by decide⟩, _, rfl⟩

theorem test_witness_TrapDispatchesOnVector :
    (0xFF1F#16 &&& 0xF000#16 = 0xF000#16 ∧
      ¬ (0x20 ≤ ((0xFF1F#16 : Word).extractLsb 7 0).toNat ∧ ((0xFF1F#16 : Word).extractLsb 7 0).toNat ≤ 0x25)) ∧
    (0xF026#16 &&& 0xF000#16 = 0xF000#16 ∧
      ¬ (0x20 ≤ ((0xF026#16 : Word).extractLsb 7 0).toNat ∧ ((0xF026#16 : Word).extractLsb 7 0).toNat ≤ 0x25)) ∧
    (0x20#8).toNat = 0x20 ∧ (0x21#8).toNat = 0x21 ∧ (0x22#8).toNat = 0x22 ∧ (0x23#8).toNat = 0x23 ∧ (0x24#8).toNat = 0x24 ∧
    (0x25#8).toNat = 0x25 ∧ ¬ (0x20 ≤ (0x1F#8).toNat ∧ (0x1F#8).toNat ≤ 0x25) ∧
    ¬ (0x20 ≤ (0x26#8).toNat ∧ (0x26#8).toNat ≤ 0x25) := by decide
theorem test_witness_UnknownVectorIsNoOp :
    ((0x1F#8).toNat < 0x20 ∨ 0x25 < (0x1F#8).toNat) ∧ ((0x26#8).toNat < 0x20 ∨ 0x25 < (0x26#8).toNat) ∧
    (running 0xF026#16).run = .running ∧ (running 0xF026#16).pc ≠ 0xFE00#16 ∧
    (running 0xF026#16).rawRead (running 0xF026#16).pc = 0xF026#16 ∧ 0xF026#16 &&& 0xF000#16 = 0xF000#16 ∧
    (((0xF026#16 : Word).extractLsb 7 0).toNat < 0x20 ∨ 0x25 < ((0xF026#16 : Word).extractLsb 7 0).toNat) := by decide
theorem test_witness_TrapLeavesLinkPcAndCond :
    (Instr.isTrap .out = true ∧ ∃ t, exec .out State.reset = .next t) ∧
    (Instr.isTrap (.trap 0x21#8) = true ∧ Instr.trap 0x21#8 ≠ .puts ∧ Instr.trap 0x21#8 ≠ .putsp ∧
      Instr.trap 0x21#8 ≠ .trap 0x22#8 ∧ Instr.trap 0x21#8 ≠ .trap 0x24#8) ∧
    Instr.isTrap .puts = true ∧
    ∀ a : Word, (endState.reg .r0).toNat ≤ a.toNat → Memory.readWord ((0x0044, 0x12#8) :: endState.mem) a = endState.rawRead a := by
  refine ⟨⟨rfl, _, rfl⟩, by decide, rfl, fun a ha => ?_⟩
  have he : (endState.reg .r0).toNat = 65535 := by decide
  have hk : wordKey a = 2 * a.toNat := rfl
  simp only [State.rawRead, Memory.readWord, Memory.readByte, show (68 = wordKey a) = False by simp; omega,
    show (68 = wordKey a + 1) = False by simp; omega, if_false]
theorem test_witness_RtiAborts :
    (withKeys (startAt 0xFE00#16 0x1234#16) [some 0x41#8]).run = .running ∧
    (withKeys (startAt 0xFE00#16 0x1234#16) [some 0x41#8]).pc = 0xFE00#16 ∧
    (withKeys (startAt 0xFE00#16 0x1234#16) [some 0x41#8]).keyboard = some 0x41#8 :: [] := by decide
theorem test_witness_LoaderInstallsTheImage :
    ([] : List Byte).length ≤ 1 ∧ [0x56#8].length ≤ 1 ∧ [0x1234#16, 0xABCD#16][1]? = some 0xABCD#16 ∧
    (0xFFFE#16 : Word).toNat + 1 < 65536 ∧ (0x2FFF#16 : Word).toNat < (0x3000#16 : Word).toNat ∧
    (0x3000#16 : Word).toNat + [0x1234#16, 0xABCD#16].length ≤ (0x3002#16 : Word).toNat := by decide
theorem test_witness_LoaderTruncates :
    ([0x0001#16, 0x0002#16, 0x0003#16].take (65536 - (0xFFFE#16 : Word).toNat))[1]? = some 0x0002#16 ∧
    (0xFFFD#16 : Word).toNat < (0xFFFE#16 : Word).toNat := by decide

end Sys2Proof.Tests
end

section
/-! The extensions of 00_scope.md R9, bit by bit. -/
namespace Sys2Proof.Machine

theorem getLsbD_sext {n : Nat} (v : BitVec n) {i : Nat} (hi : i < 16) :
    (sext v).getLsbD i = if i < n then v.getLsbD i else v.getLsbD (n - 1) := by
  rw [sext, BitVec.getLsbD_signExtend, BitVec.msb_eq_getLsbD_last]
  simp [hi]

/-- The field survives its own extension: law W2 of 95_test_vectors.md follows by extending both sides. -/
theorem extractLsb'_zero_sext {n : Nat} (v : BitVec n) (hn : n ≤ 16) : (sext v).extractLsb' 0 n = v := by
  ext i hi
  rw [BitVec.getElem_extractLsb', Nat.zero_add, getLsbD_sext v (by omega), if_pos hi, BitVec.getLsbD_eq_getElem hi]

@[simp] theorem getLsbD_zextByte (c : Byte) (i : Nat) :
    (zextByte c).getLsbD i = (decide (i < 8) && c.getLsbD i) := by
  rw [zextByte, BitVec.zeroExtend_eq_setWidth, BitVec.getLsbD_setWidth]
  by_cases hi : i < 8
  · simp [hi, Nat.lt_trans hi (by decide : 8 < 16)]
  · simp [hi, BitVec.getLsbD_of_ge c i (by omega)]

end Sys2Proof.Machine

namespace Sys2Proof.Proofs
open Sys2Proof.Machine

/-- Settles O28: the four field widths are at most 16, where a field is read back from its extension. -/
theorem signExtensionFillsHighBits : Obligations.SignExtensionFillsHighBits := by
  unfold Obligations.SignExtensionFillsHighBits
  refine ⟨fun n v hn => ⟨fun i hi => getLsbD_sext v hi, ?_⟩, getLsbD_zextByte⟩
  rw [extractLsb'_zero_sext v (by omega)]

end Sys2Proof.Proofs
end

section
/-! The condition of a result by its bit 15 (10_state.md R26), and the output trace across exec (R33). -/
namespace Sys2Proof.Machine

theorem condOf_eq_bit15 (v : Word) :
    condOf v = if v = 0x0000#16 then .z else if v[15] = true then .n else .p := by
  rw [condOf, BitVec.msb_eq_getLsbD_last, BitVec.getLsbD_eq_getElem (by decide)]

/-- Outside the trap rows nothing reaches the console: a load's poll takes a key and prints none. -/
theorem exec_out_of_not_trap {i : Instr} {s t : State} (hi : i.isTrap = false) (h : exec i s = .next t) :
    t.out = s.out := by
  cases i <;> simp only [Instr.isTrap, Bool.true_eq_false] at hi
  case br nzp off9 =>
    cases h
    split
    · exact State.setPc_out ..
    · rfl
  all_goals
    cases h
    simp

/-- What an instruction appends, which is nothing unless it is one of the five. -/
theorem exec_appends {i : Instr} {s t : State} (h : exec i s = .next t) :
    ∃ bs, t.out = s.out ++ bs ∧ (i.mayPrint = false → bs = []) := by
  cases hi : i.isTrap with
  | true => exact (trap_leaves hi h).out
  | false => exact ⟨[], by rw [exec_out_of_not_trap hi h, List.append_nil], fun _ => rfl⟩

end Sys2Proof.Machine

namespace Sys2Proof.Proofs
open Sys2Proof.Machine

/-- Settles O25: the traps by what every trap row leaves, the other instructions by leaving the output alone. -/
theorem onlyFiveTrapsWriteOutput : Obligations.OnlyFiveTrapsWriteOutput := by
  unfold Obligations.OnlyFiveTrapsWriteOutput
  refine ⟨rfl, fun _ _ => rfl, fun i s t h => ?_⟩
  obtain ⟨bs, hout, hquiet⟩ := exec_appends h
  exact ⟨⟨bs, hout⟩, fun hp => by rw [hout, hquiet hp, List.append_nil]⟩

/-- Settles O22: setcc replaces COND alone, by the flag of the result. -/
theorem setCcFollowsTheResult : Obligations.SetCcFollowsTheResult := by
  unfold Obligations.SetCcFollowsTheResult
  intro s v
  rw [State.setCc, condOf_eq_bit15]

end Sys2Proof.Proofs
end

section
/-! The entry point (70_reset_and_hazards.md R241) and what the Loader leaves in memory (R242, R243). -/
namespace Sys2Proof.Machine

/-- A fetch away from KBSR reads the stored word and moves `pc` alone. -/
theorem fetch_of_ne {s : State} (h : s.pc ≠ Config.kbsr) : s.fetch = (s.rawRead s.pc, s.setPc (s.pc + 1#16)) := by
  rw [State.fetch, memRead_of_ne s h]

/-- An image with an origin always loads, however long it is and whether or not an odd byte follows. -/
theorem load_imageOf (s : State) (origin : Word) (ws : List Word) {odd : List Byte} (h : odd.length ≤ 1) :
    s.load (imageOf (origin :: ws) ++ odd) = some (s.loadWords origin.toNat ws) := by
  rw [State.load, imageWords_imageOf _ h]

/-- Each word of the image that has an address is read back there. -/
theorem rawRead_loadWords_of_getElem? (s : State) {a k : Nat} {ws : List Word} {w : Word} (hk : ws[k]? = some w)
    (hfit : a + k < 65536) : (s.loadWords a ws).rawRead (BitVec.ofNat 16 (a + k)) = w := by
  have haddr : (BitVec.ofNat 16 (a + k)).toNat = a + k := Nat.mod_eq_of_lt hfit
  rw [rawRead_loadWords, haddr, if_pos (Nat.le_add_right a k), Nat.add_sub_cancel_left, hk, Option.getD_some]

/-- Nothing below the first address is written, so the Loader does not wrap past 0xFFFF. -/
theorem rawRead_loadWords_below (s : State) {a : Nat} (ws : List Word) {b : Word} (h : b.toNat < a) :
    (s.loadWords a ws).rawRead b = s.rawRead b := by
  rw [rawRead_loadWords, if_neg (Nat.not_le.mpr h)]

end Sys2Proof.Machine

namespace Sys2Proof.Proofs
open Sys2Proof.Machine

/-- Settles O59: both images leave the state `loadWords` gives, and a word kept by the truncation has an address. -/
theorem loaderTruncates : Obligations.LoaderTruncates := by
  unfold Obligations.LoaderTruncates
  intro s origin ws
  have hload (vs : List Word) : s.load (imageOf (origin :: vs)) = some (s.loadWords origin.toNat vs) := by
    simpa using load_imageOf s origin vs (odd := []) (by decide)
  refine ⟨s.loadWords origin.toNat ws, hload ws, ?_, fun k w hk => ?_, fun a => rawRead_loadWords_below s ws⟩
  · rw [hload, loadWords_take s ws rfl]
  · rw [List.getElem?_take, Option.ite_none_right_eq_some] at hk
    obtain ⟨hlt, hw⟩ := hk
    exact rawRead_loadWords_of_getElem? s hw (by omega)

/-- Settles O1: the fetch from 0x3000 reads the stored word, whatever memory stands in for the reset memory. -/
theorem resetStatedValues : Obligations.ResetStatedValues := by
  unfold Obligations.ResetStatedValues
  refine ⟨rfl, rfl, fun m => ?_⟩
  have hpc : ({ State.reset with mem := m } : State).pc ≠ Config.kbsr := by
    show Config.pcStart ≠ Config.kbsr
    decide
  rw [step_of_running rfl, fetch_of_ne hpc]
  rfl

end Sys2Proof.Proofs
end

section
/-! The decoder, an equation per format (30_encoding.md R72, R73), and decoding against encoding: which bits each keeps (R79). -/
namespace Sys2Proof

/-! ## Decoding by opcode -/

section
variable {w : Word}

theorem decodeWord_of_br (h : Opcode.ofBits (w.extractLsb 15 12) = .br) :
    decodeWord w = .br (w.extractLsb 11 9) (w.extractLsb 8 0) := by
  rw [decodeWord, h]

theorem decodeWord_of_addReg (h : Opcode.ofBits (w.extractLsb 15 12) = .add) (h5 : w[5] = false) :
    decodeWord w = .addReg (Reg.ofBits (w.extractLsb 11 9)) (Reg.ofBits (w.extractLsb 8 6)) (Reg.ofBits (w.extractLsb 2 0)) := by
  simp only [decodeWord, h, h5, Bool.false_eq_true, if_false]

theorem decodeWord_of_addImm (h : Opcode.ofBits (w.extractLsb 15 12) = .add) (h5 : w[5] = true) :
    decodeWord w = .addImm (Reg.ofBits (w.extractLsb 11 9)) (Reg.ofBits (w.extractLsb 8 6)) (w.extractLsb 4 0) := by
  simp only [decodeWord, h, h5, if_true]

theorem decodeWord_of_ld (h : Opcode.ofBits (w.extractLsb 15 12) = .ld) :
    decodeWord w = .ld (Reg.ofBits (w.extractLsb 11 9)) (w.extractLsb 8 0) := by
  rw [decodeWord, h]

theorem decodeWord_of_st (h : Opcode.ofBits (w.extractLsb 15 12) = .st) :
    decodeWord w = .st (Reg.ofBits (w.extractLsb 11 9)) (w.extractLsb 8 0) := by
  rw [decodeWord, h]

theorem decodeWord_of_jsr (h : Opcode.ofBits (w.extractLsb 15 12) = .jsr) (h11 : w[11] = true) :
    decodeWord w = .jsr (w.extractLsb 10 0) := by
  simp only [decodeWord, h, h11, if_true]

theorem decodeWord_of_jsrr (h : Opcode.ofBits (w.extractLsb 15 12) = .jsr) (h11 : w[11] = false) :
    decodeWord w = .jsrr (Reg.ofBits (w.extractLsb 8 6)) := by
  simp only [decodeWord, h, h11, Bool.false_eq_true, if_false]

theorem decodeWord_of_andReg (h : Opcode.ofBits (w.extractLsb 15 12) = .and) (h5 : w[5] = false) :
    decodeWord w = .andReg (Reg.ofBits (w.extractLsb 11 9)) (Reg.ofBits (w.extractLsb 8 6)) (Reg.ofBits (w.extractLsb 2 0)) := by
  simp only [decodeWord, h, h5, Bool.false_eq_true, if_false]

theorem decodeWord_of_andImm (h : Opcode.ofBits (w.extractLsb 15 12) = .and) (h5 : w[5] = true) :
    decodeWord w = .andImm (Reg.ofBits (w.extractLsb 11 9)) (Reg.ofBits (w.extractLsb 8 6)) (w.extractLsb 4 0) := by
  simp only [decodeWord, h, h5, if_true]

theorem decodeWord_of_ldr (h : Opcode.ofBits (w.extractLsb 15 12) = .ldr) :
    decodeWord w = .ldr (Reg.ofBits (w.extractLsb 11 9)) (Reg.ofBits (w.extractLsb 8 6)) (w.extractLsb 5 0) := by
  rw [decodeWord, h]

theorem decodeWord_of_str (h : Opcode.ofBits (w.extractLsb 15 12) = .str) :
    decodeWord w = .str (Reg.ofBits (w.extractLsb 11 9)) (Reg.ofBits (w.extractLsb 8 6)) (w.extractLsb 5 0) := by
  rw [decodeWord, h]

theorem decodeWord_of_rti (h : Opcode.ofBits (w.extractLsb 15 12) = .rti) : decodeWord w = .rti := by
  rw [decodeWord, h]

theorem decodeWord_of_not (h : Opcode.ofBits (w.extractLsb 15 12) = .not) :
    decodeWord w = .not (Reg.ofBits (w.extractLsb 11 9)) (Reg.ofBits (w.extractLsb 8 6)) := by
  rw [decodeWord, h]

theorem decodeWord_of_ldi (h : Opcode.ofBits (w.extractLsb 15 12) = .ldi) :
    decodeWord w = .ldi (Reg.ofBits (w.extractLsb 11 9)) (w.extractLsb 8 0) := by
  rw [decodeWord, h]

theorem decodeWord_of_sti (h : Opcode.ofBits (w.extractLsb 15 12) = .sti) :
    decodeWord w = .sti (Reg.ofBits (w.extractLsb 11 9)) (w.extractLsb 8 0) := by
  rw [decodeWord, h]

theorem decodeWord_of_jmp (h : Opcode.ofBits (w.extractLsb 15 12) = .jmp) :
    decodeWord w = decodeJmp (Reg.ofBits (w.extractLsb 8 6)) := by
  rw [decodeWord, h]

theorem decodeWord_of_res (h : Opcode.ofBits (w.extractLsb 15 12) = .res) : decodeWord w = .res := by
  rw [decodeWord, h]

theorem decodeWord_of_lea (h : Opcode.ofBits (w.extractLsb 15 12) = .lea) :
    decodeWord w = .lea (Reg.ofBits (w.extractLsb 11 9)) (w.extractLsb 8 0) := by
  rw [decodeWord, h]

theorem decodeWord_of_trap (h : Opcode.ofBits (w.extractLsb 15 12) = .trap) :
    decodeWord w = decodeTrap (w.extractLsb 7 0) := by
  rw [decodeWord, h]

end

/-- A word on one of the six service rows is read as the service of the row's vector. -/
theorem decodeWord_of_serviceRow {w v : Word} (h : w &&& 0xF0FF#16 = v) (hv : v &&& 0xF0FF#16 = v)
    (hop : Opcode.ofBits (v.extractLsb 15 12) = .trap) : decodeWord w = decodeTrap (v.extractLsb 7 0) := by
  rw [decodeWord_of_trap (opcode_of_row h rfl hop), vector_of_row h hv]

/-! ## JMP and TRAP, whose more specific rows have constructors of their own -/

theorem decodeTrap_of_wellFormed {vec : BitVec 8} (h : (Instr.trap vec).wellFormed = true) : decodeTrap vec = .trap vec := by
  revert vec; decide

theorem wellFormed_trap_of_not_service {vec : BitVec 8} (h : ¬ (0x20 ≤ vec.toNat ∧ vec.toNat ≤ 0x25)) :
    (Instr.trap vec).wellFormed = true := by
  revert vec; decide

theorem wellFormed_decodeTrap (vec : BitVec 8) : (decodeTrap vec).wellFormed = true := by
  revert vec; decide

theorem encode_decodeTrap (vec : BitVec 8) : encode (decodeTrap vec) = formatTrapf .trap vec := by
  unfold decodeTrap
  split_ifs <;> simp only [encode, *]

theorem careMask_decodeTrap (vec : BitVec 8) : (decodeTrap vec).careMask = 0xF0FF#16 := by
  unfold decodeTrap
  split_ifs <;> rfl

theorem wellFormed_decodeJmp (r : Reg) : (decodeJmp r).wellFormed = true := by
  revert r; rintro ⟨⟩ <;> rfl

theorem encode_decodeJmp (r : Reg) : encode (decodeJmp r) = formatJmpf .jmp r := by
  unfold decodeJmp
  split_ifs <;> simp only [encode, *]

theorem careMask_decodeJmp (r : Reg) : (decodeJmp r).careMask = 0xF1C0#16 := by
  unfold decodeJmp
  split_ifs <;> rfl

/-! ## Encoding what was decoded -/

theorem word_and_FFFF (w : Word) : w &&& 0xFFFF#16 = w :=
  BitVec.and_allOnes

theorem word_and_FFE7 (w : Word) :
    w &&& 0xFFE7#16 = (w.extractLsb 15 12 ++ w.extractLsb 11 9 ++ w.extractLsb 8 6 ++ BitVec.ofBool w[5] ++ 0#2 ++
      w.extractLsb 2 0 : BitVec (4 + 3 + 3 + 1 + 2 + 3)) := by
  apply BitVec.eq_of_getLsbD_eq
  intro i hi
  simp only [BitVec.getLsbD_and, BitVec.getLsbD_append, BitVec.extractLsb, BitVec.getLsbD_extractLsb']
  interval_cases i <;> simp

theorem word_and_FFC0 (w : Word) :
    w &&& 0xFFC0#16 = (w.extractLsb 15 12 ++ w.extractLsb 11 9 ++ w.extractLsb 8 6 ++ 0#6 : BitVec (4 + 3 + 3 + 6)) := by
  apply BitVec.eq_of_getLsbD_eq
  intro i hi
  simp only [BitVec.getLsbD_and, BitVec.getLsbD_append, BitVec.extractLsb, BitVec.getLsbD_extractLsb']
  interval_cases i <;> simp

theorem word_and_F9C0 (w : Word) :
    w &&& 0xF9C0#16 = (w.extractLsb 15 12 ++ BitVec.ofBool w[11] ++ 0#2 ++ w.extractLsb 8 6 ++ 0#6 :
      BitVec (4 + 1 + 2 + 3 + 6)) := by
  apply BitVec.eq_of_getLsbD_eq
  intro i hi
  simp only [BitVec.getLsbD_and, BitVec.getLsbD_append, BitVec.extractLsb, BitVec.getLsbD_extractLsb']
  interval_cases i <;> simp

theorem bits_of_ofBits {b : BitVec 4} {op : Opcode} (h : Opcode.ofBits b = op) : op.bits = b := by
  rw [← h, opcode_bits_ofBits]

/-- A one-bit field is its bit. -/
theorem extractLsb_one_bit (w : Word) (k : Nat) (hk : k < 16) : w.extractLsb' k 1 = BitVec.ofBool w[k] := by
  apply BitVec.eq_of_getLsbD_eq
  intro i hi
  obtain rfl : i = 0 := by omega
  simp [BitVec.getLsbD_eq_getElem hk]

section
variable {w : Word} {op : Opcode} (h : Opcode.ofBits (w.extractLsb 15 12) = op)
include h

theorem formatPcr_fields : formatPcr op (Reg.ofBits (w.extractLsb 11 9)) (w.extractLsb 8 0) = w := by
  rw [formatPcr, reg_bits_ofBits, bits_of_ofBits h]
  exact (word_splitPcr w).symm

theorem formatBrf_fields : formatBrf op (w.extractLsb 11 9) (w.extractLsb 8 0) = w := by
  rw [formatBrf, bits_of_ofBits h]
  exact (word_splitPcr w).symm

theorem formatBase_fields :
    formatBase op (Reg.ofBits (w.extractLsb 11 9)) (Reg.ofBits (w.extractLsb 8 6)) (w.extractLsb 5 0) = w := by
  rw [formatBase, reg_bits_ofBits, reg_bits_ofBits, bits_of_ofBits h]
  exact (word_splitBase w).symm

theorem formatOpi_fields (h5 : w[5] = true) :
    formatOpi op (Reg.ofBits (w.extractLsb 11 9)) (Reg.ofBits (w.extractLsb 8 6)) (w.extractLsb 4 0) = w := by
  have hbit : w.extractLsb 5 5 = 0b1#1 := by
    rw [BitVec.extractLsb, extractLsb_one_bit w 5 (by decide), h5]; rfl
  rw [formatOpi, reg_bits_ofBits, reg_bits_ofBits, bits_of_ofBits h, ← hbit]
  exact (word_splitOpi w).symm

theorem formatJsrf_fields (h11 : w[11] = true) : formatJsrf op (w.extractLsb 10 0) = w := by
  have hbit : w.extractLsb 11 11 = 0b1#1 := by
    rw [BitVec.extractLsb, extractLsb_one_bit w 11 (by decide), h11]; rfl
  rw [formatJsrf, bits_of_ofBits h, ← hbit]
  exact (word_splitJsrf w).symm

theorem formatOpr_fields (h5 : w[5] = false) :
    formatOpr op (Reg.ofBits (w.extractLsb 11 9)) (Reg.ofBits (w.extractLsb 8 6)) (Reg.ofBits (w.extractLsb 2 0)) &&&
      0xFFE7#16 = w &&& 0xFFE7#16 := by
  simp only [word_and_FFE7, formatOpr_op, formatOpr_dr, formatOpr_sr1, formatOpr_sr2, formatOpr_bit5, reg_bits_ofBits,
    bits_of_ofBits h, h5]

theorem formatNotf_fields :
    formatNotf op (Reg.ofBits (w.extractLsb 11 9)) (Reg.ofBits (w.extractLsb 8 6)) &&& 0xFFC0#16 = w &&& 0xFFC0#16 := by
  simp only [word_and_FFC0, formatNotf_op, formatNotf_dr, formatNotf_sr, reg_bits_ofBits, bits_of_ofBits h]

theorem formatJmpf_fields : formatJmpf op (Reg.ofBits (w.extractLsb 8 6)) &&& 0xF1C0#16 = w &&& 0xF1C0#16 := by
  simp only [word_and_F1C0, formatJmpf_op, formatJmpf_baseR, reg_bits_ofBits, bits_of_ofBits h]

theorem formatJsrrf_fields (h11 : w[11] = false) :
    formatJsrrf op (Reg.ofBits (w.extractLsb 8 6)) &&& 0xF9C0#16 = w &&& 0xF9C0#16 := by
  simp only [word_and_F9C0, formatJsrrf_op, formatJsrrf_baseR, formatJsrrf_bit11, reg_bits_ofBits, bits_of_ofBits h, h11]

theorem formatTrapf_fields : formatTrapf op (w.extractLsb 7 0) &&& 0xF0FF#16 = w &&& 0xF0FF#16 := by
  simp only [word_and_F0FF, formatTrapf_op, formatTrapf_vec, bits_of_ofBits h]

theorem formatNone_fields : formatNone op &&& 0xF000#16 = w &&& 0xF000#16 := by
  simp only [word_and_F000, formatNone_op, bits_of_ofBits h]

end

/-- Encoding puts every field the decoder read back where it stood. -/
theorem encode_decodeWord_and_careMask (w : Word) :
    encode (decodeWord w) &&& (decodeWord w).careMask = w &&& (decodeWord w).careMask := by
  cases h : Opcode.ofBits (w.extractLsb 15 12)
  case br => rw [decodeWord_of_br h, encode, formatBrf_fields h]
  case ld => rw [decodeWord_of_ld h, encode, formatPcr_fields h]
  case st => rw [decodeWord_of_st h, encode, formatPcr_fields h]
  case ldi => rw [decodeWord_of_ldi h, encode, formatPcr_fields h]
  case sti => rw [decodeWord_of_sti h, encode, formatPcr_fields h]
  case lea => rw [decodeWord_of_lea h, encode, formatPcr_fields h]
  case ldr => rw [decodeWord_of_ldr h, encode, formatBase_fields h]
  case str => rw [decodeWord_of_str h, encode, formatBase_fields h]
  case not => rw [decodeWord_of_not h]; exact formatNotf_fields h
  case rti => rw [decodeWord_of_rti h]; exact formatNone_fields h
  case res => rw [decodeWord_of_res h]; exact formatNone_fields h
  case jmp => rw [decodeWord_of_jmp h, encode_decodeJmp, careMask_decodeJmp, formatJmpf_fields h]
  case trap => rw [decodeWord_of_trap h, encode_decodeTrap, careMask_decodeTrap, formatTrapf_fields h]
  case add =>
    cases h5 : w[5] with
    | true => rw [decodeWord_of_addImm h h5, encode, formatOpi_fields h h5]
    | false => rw [decodeWord_of_addReg h h5]; exact formatOpr_fields h h5
  case and =>
    cases h5 : w[5] with
    | true => rw [decodeWord_of_andImm h h5, encode, formatOpi_fields h h5]
    | false => rw [decodeWord_of_andReg h h5]; exact formatOpr_fields h h5
  case jsr =>
    cases h11 : w[11] with
    | true => rw [decodeWord_of_jsr h h11, encode, formatJsrf_fields h h11]
    | false => rw [decodeWord_of_jsrr h h11]; exact formatJsrrf_fields h h11

/-- Decoding prefers the more specific row, so it never answers `jmp r7` or a service's vector as a generic TRAP. -/
theorem wellFormed_decodeWord (w : Word) : (decodeWord w).wellFormed = true := by
  cases h : Opcode.ofBits (w.extractLsb 15 12)
  case jmp => rw [decodeWord_of_jmp h]; exact wellFormed_decodeJmp _
  case trap => rw [decodeWord_of_trap h]; exact wellFormed_decodeTrap _
  case add | and | jsr => simp only [decodeWord, h]; split <;> rfl
  all_goals
    simp only [decodeWord, h]
    rfl

/-! ## Decoding what was encoded -/

theorem decodeWord_encode {i : Instr} (hi : i.wellFormed = true) : decodeWord (encode i) = i := by
  cases i
  case jmp r =>
    have hr : r ≠ .r7 := by simpa [Instr.wellFormed] using hi
    simp [encode, decodeWord, decodeJmp, hr]
  case trap vec => simp [encode, decodeWord, decodeTrap_of_wellFormed hi]
  all_goals simp [encode, decodeWord, decodeJmp, decodeTrap]

/-- Every instruction looks at its opcode. -/
theorem opcode_of_care {i : Instr} {v : Word} (h : v &&& i.careMask = encode i &&& i.careMask) :
    Opcode.ofBits (v.extractLsb 15 12) = Opcode.ofBits ((encode i).extractLsb 15 12) := by
  have hmask : i.careMask.extractLsb 15 12 = BitVec.allOnes (15 - 12 + 1) := by
    cases i <;> simp only [Instr.careMask] <;> decide
  rw [field_of_mask_eq h 15 12 hmask]

/-- A word that agrees with an instruction's canonical word on the bits the instruction looks at is read as it. -/
theorem decodeWord_of_care {i : Instr} {v : Word} (hi : i.wellFormed = true)
    (h : v &&& i.careMask = encode i &&& i.careMask) : decodeWord v = i := by
  have hop := opcode_of_care h
  cases i <;> simp only [Instr.careMask] at h
  case addReg dr sr1 sr2 =>
    have h5 : v[5] = false := (bit_of_row h 5 (by decide) rfl).trans (by simp [encode])
    rw [decodeWord_of_addReg (hop.trans (by simp [encode])) h5, field_of_mask_eq h 11 9 rfl, field_of_mask_eq h 8 6 rfl,
      field_of_mask_eq h 2 0 rfl]
    simp [encode]
  case andReg dr sr1 sr2 =>
    have h5 : v[5] = false := (bit_of_row h 5 (by decide) rfl).trans (by simp [encode])
    rw [decodeWord_of_andReg (hop.trans (by simp [encode])) h5, field_of_mask_eq h 11 9 rfl, field_of_mask_eq h 8 6 rfl,
      field_of_mask_eq h 2 0 rfl]
    simp [encode]
  case not dr sr =>
    rw [decodeWord_of_not (hop.trans (by simp [encode])), field_of_mask_eq h 11 9 rfl, field_of_mask_eq h 8 6 rfl]
    simp [encode]
  case jsrr r =>
    have h11 : v[11] = false := (bit_of_row h 11 (by decide) rfl).trans (by simp [encode])
    rw [decodeWord_of_jsrr (hop.trans (by simp [encode])) h11, field_of_mask_eq h 8 6 rfl]
    simp [encode]
  case jmp r =>
    rw [decodeWord_of_jmp (hop.trans (by simp [encode])), field_of_mask_eq h 8 6 rfl]
    simpa [encode, decodeJmp, Instr.wellFormed] using hi
  case ret =>
    rw [decodeWord_of_jmp (hop.trans (by simp [encode])), field_of_mask_eq h 8 6 rfl]
    simp [encode, decodeJmp]
  case trap vec =>
    rw [decodeWord_of_trap (hop.trans (by simp [encode])), field_of_mask_eq h 7 0 rfl, encode, formatTrapf_vec,
      decodeTrap_of_wellFormed hi]
  case getc | out | puts | inKey | putsp | halt =>
    rw [decodeWord_of_trap (hop.trans (by simp [encode])), field_of_mask_eq h 7 0 rfl, encode, formatTrapf_vec]
    rfl
  case rti => exact decodeWord_of_rti (hop.trans (by simp [encode]))
  case res => exact decodeWord_of_res (hop.trans (by simp [encode]))
  all_goals
    rw [word_and_FFFF, word_and_FFFF] at h
    rw [h, decodeWord_encode hi]

/-- A row's mask keeps no bit the instruction does not look at. -/
theorem careMask_and_rowMask (i : Instr) : i.careMask &&& i.rowMask = i.rowMask := by
  cases i <;> simp only [Instr.careMask, Instr.rowMask, -BitVec.reduceAnd] <;> decide

/-- The canonical word of an instruction matches its row: the family `Laws.RowMatch`, for an arbitrary instruction. -/
theorem encode_and_rowMask {i : Instr} (hi : i.wellFormed = true) : encode i &&& i.rowMask = i.rowMatch := by
  cases i with
  | addReg dr sr1 sr2 => exact Laws.RowMatch.addReg dr sr1 sr2 hi
  | addImm dr sr1 imm5 => exact Laws.RowMatch.addImm dr sr1 imm5 hi
  | andReg dr sr1 sr2 => exact Laws.RowMatch.andReg dr sr1 sr2 hi
  | andImm dr sr1 imm5 => exact Laws.RowMatch.andImm dr sr1 imm5 hi
  | not dr sr => exact Laws.RowMatch.not dr sr hi
  | br nzp off9 => exact Laws.RowMatch.br nzp off9 hi
  | jmp baseR => exact Laws.RowMatch.jmp baseR hi
  | ret => exact Laws.RowMatch.ret hi
  | jsr off11 => exact Laws.RowMatch.jsr off11 hi
  | jsrr baseR => exact Laws.RowMatch.jsrr baseR hi
  | ld dr off9 => exact Laws.RowMatch.ld dr off9 hi
  | ldi dr off9 => exact Laws.RowMatch.ldi dr off9 hi
  | ldr dr baseR off6 => exact Laws.RowMatch.ldr dr baseR off6 hi
  | lea dr off9 => exact Laws.RowMatch.lea dr off9 hi
  | st sr off9 => exact Laws.RowMatch.st sr off9 hi
  | sti sr off9 => exact Laws.RowMatch.sti sr off9 hi
  | str sr baseR off6 => exact Laws.RowMatch.str sr baseR off6 hi
  | getc => exact Laws.RowMatch.getc hi
  | out => exact Laws.RowMatch.out hi
  | puts => exact Laws.RowMatch.puts hi
  | inKey => exact Laws.RowMatch.inKey hi
  | putsp => exact Laws.RowMatch.putsp hi
  | halt => exact Laws.RowMatch.halt hi
  | trap vec => exact Laws.RowMatch.trap vec hi
  | rti => exact Laws.RowMatch.rti hi
  | res => exact Laws.RowMatch.res hi

end Sys2Proof

namespace Sys2Proof.Proofs

/-- Settles O5: the fields of every format read back, and the two bytes of a word make up the word. -/
theorem decodeOfEncode : Obligations.DecodeOfEncode := by
  unfold Obligations.DecodeOfEncode
  refine fun i hi => ⟨decodeWord_encode hi, fun rest => ?_⟩
  show Decoded.instr (decodeWord (wordOfBytes (hiByte (encode i)) (loByte (encode i)))) rest = .instr i rest
  rw [Machine.wordOfBytes_hiByte_loByte, decodeWord_encode hi]

/-- Settles O7: by the opcode, each format gives back the fields the decoder read. -/
theorem decodeDropsOnlyDontCareBits : Obligations.DecodeDropsOnlyDontCareBits := by
  unfold Obligations.DecodeDropsOnlyDontCareBits
  exact encode_decodeWord_and_careMask

/-- Settles O6: a word agrees with the canonical word of its reading on every bit of the row's mask. -/
theorem decodedWordMatchesItsRow : Obligations.DecodedWordMatchesItsRow := by
  unfold Obligations.DecodedWordMatchesItsRow
  intro w
  have hwf := wellFormed_decodeWord w
  refine ⟨hwf, ?_⟩
  calc w &&& (decodeWord w).rowMask
      = w &&& (decodeWord w).careMask &&& (decodeWord w).rowMask := by rw [BitVec.and_assoc, careMask_and_rowMask]
    _ = encode (decodeWord w) &&& (decodeWord w).careMask &&& (decodeWord w).rowMask := by
      rw [encode_decodeWord_and_careMask]
    _ = encode (decodeWord w) &&& (decodeWord w).rowMask := by rw [BitVec.and_assoc, careMask_and_rowMask]
    _ = (decodeWord w).rowMatch := encode_and_rowMask hwf

/-- Settles O8: both words agree with the canonical word of the first one's reading on the bits it looks at. -/
theorem dontCareBitsIgnored : Obligations.DontCareBitsIgnored := by
  unfold Obligations.DontCareBitsIgnored
  intro w v h
  have hdec : decodeWord v = decodeWord w :=
    decodeWord_of_care (wellFormed_decodeWord w) (h.symm.trans (encode_decodeWord_and_careMask w).symm)
  exact ⟨hdec, fun s => by rw [hdec]⟩

/-- Settles O9: twelve closed words. -/
theorem wordsOfTheSpecDecode : Obligations.WordsOfTheSpecDecode := by
  unfold Obligations.WordsOfTheSpecDecode
  decide

end Sys2Proof.Proofs
end

section
/-! One instruction: whether it answers, and what it does to `run`, `pc`, COND, memory and the host's side. -/
namespace Sys2Proof.Machine

/-! ## The cycle -/

/-- Away from KBSR the cycle runs the stored word, and the fetch moves `pc` alone. -/
theorem step_of_pc_ne {s : State} (h : s.run = .running) (hpc : s.pc ≠ Config.kbsr) :
    step s = exec (decodeWord (s.rawRead s.pc)) (s.setPc (s.pc + 1#16)) := by
  rw [step_of_running h, fetch_of_ne hpc]

/-- A fetch from KBSR yields RTI or a BR with an empty mask (70_reset_and_hazards.md R249). -/
theorem nextInstr_at_kbsr {s : State} (h : s.pc = Config.kbsr) : s.nextInstr = .rti ∨ s.nextInstr = .br 0b000#3 0#9 := by
  rw [State.nextInstr, fetch_fst, h]
  rcases wordAfterRead_kbsr s with hw | hw <;> rw [hw]
  · exact .inl rfl
  · exact .inr rfl

theorem wellFormed_nextInstr (s : State) : s.nextInstr.wellFormed = true :=
  wellFormed_decodeWord _

/-! ## Which instructions answer -/

/-- A generic TRAP does what the row of its vector does. -/
theorem exec_decodeTrap (vec : BitVec 8) (s : State) : exec (decodeTrap vec) s = exec (.trap vec) s := by
  unfold decodeTrap
  split_ifs <;> subst_vars <;> rfl

/-- Of the words' readings only GETC and IN may wait for a key. -/
theorem readsKey_of_wellFormed {i : Instr} (hi : i.wellFormed = true) (hk : i.readsKey = true) : i = .getc ∨ i = .inKey := by
  cases i
  case getc => exact .inl rfl
  case inKey => exact .inr rfl
  case trap vec => revert vec; decide
  all_goals cases hk

theorem isTrap_of_readsKey {i : Instr} (h : i.readsKey = true) : i.isTrap = true := by
  cases i
  case getc | inKey | trap => rfl
  all_goals cases h

theorem exec_next_or_waits {i : Instr} (hi : i.wellFormed = true) (s : State) :
    (∃ t, exec i s = .next t) ∨ ((i = .getc ∨ i = .inKey) ∧ exec i s = .fault .waitingForKey) := by
  cases i
  case getc =>
    rcases getcService_cases s with ⟨_, _, _, h⟩ | ⟨_, h⟩
    · exact .inl ⟨_, h⟩
    · exact .inr ⟨.inl rfl, h⟩
  case inKey =>
    rcases inService_cases s with ⟨_, _, _, h⟩ | ⟨_, h⟩
    · exact .inl ⟨_, h⟩
    · exact .inr ⟨.inr rfl, h⟩
  case trap vec => exact .inl ⟨s, exec_trap_of_wellFormed vec s hi⟩
  all_goals exact .inl ⟨_, rfl⟩

/-! ## The executor state -/

/-- What `run` can be after an instruction: as before, or at one of the ends of a run. -/
inductive RunAfter (r : Run) : Instr → Run → Prop
  | goesOn {i : Instr} (halt : i ≠ .halt) (rti : i ≠ .rti) (res : i ≠ .res) : RunAfter r i r
  | halt : RunAfter r .halt .halted
  | rti : RunAfter r .rti (.aborted (.fatalOpcode .rti))
  | res : RunAfter r .res (.aborted (.fatalOpcode .res))
  | puts : RunAfter r .puts (.aborted .stringPastEnd)
  | putsp : RunAfter r .putsp (.aborted .stringPastEnd)

theorem emitScan_run (s : State) (scan : StringScan) :
    (s.emitScan scan).run = s.run ∨ (s.emitScan scan).run = .aborted .stringPastEnd := by
  rw [emitScan_eq]
  cases scan.pastEnd
  · exact .inl rfl
  · exact .inr rfl

theorem run_of_exec {i : Instr} {s t : State} (hi : i.wellFormed = true) (h : exec i s = .next t) :
    RunAfter s.run i t.run := by
  cases i
  case halt => cases h; exact .halt
  case rti => cases h; exact .rti
  case res => cases h; exact .res
  case puts =>
    cases h
    rcases emitScan_run s (putsScan s.mem (wordsLeft (s.reg .r0)) (s.reg .r0)) with hr | hr <;> rw [hr]
    · exact .goesOn nofun nofun nofun
    · exact .puts
  case putsp =>
    cases h
    rcases emitScan_run s (putspScan s.putspHighByte s.mem (wordsLeft (s.reg .r0)) (s.reg .r0)) with hr | hr <;> rw [hr]
    · exact .goesOn nofun nofun nofun
    · exact .putsp
  case getc => rw [(getcService_leaves h false).run rfl]; exact .goesOn nofun nofun nofun
  case inKey => rw [(inService_leaves h).run rfl]; exact .goesOn nofun nofun nofun
  case trap vec =>
    rw [exec_trap_of_wellFormed vec s hi] at h
    cases h
    exact .goesOn nofun nofun nofun
  case br nzp off9 => cases h; split <;> exact .goesOn nofun nofun nofun
  case ld | ldi | ldr | sti => cases h; simpa using .goesOn nofun nofun nofun
  all_goals cases h; exact .goesOn nofun nofun nofun

/-! ## `pc`, COND and the canonical form -/

theorem pc_of_exec {i : Instr} {s t : State} (hi : i.isTransfer = false) (h : exec i s = .next t) : t.pc = s.pc := by
  by_cases ht : i.isTrap = true
  · exact (trap_leaves ht h).pc
  · cases i <;> simp only [Instr.isTrap, not_true_eq_false, Instr.isTransfer, Bool.true_eq_false] at ht hi
    all_goals
      cases h
      simp

theorem writeResult_cond (s : State) (d : Reg) (v : Word) :
    (s.writeResult d v).cond =
      if (s.writeResult d v).reg d = 0x0000#16 then .z else if ((s.writeResult d v).reg d)[15] = true then .n else .p := by
  rw [← condOf_eq_bit15]
  simp

theorem flagDest_of_isTrap {i : Instr} (h : i.isTrap = true) : i.flagDest = none := by
  cases i
  case getc | out | puts | inKey | putsp | halt | trap => rfl
  all_goals cases h

theorem cond_of_exec {i : Instr} {s t : State} (hi : i.flagDest = none) (h : exec i s = .next t) : t.cond = s.cond := by
  by_cases ht : i.isTrap = true
  · exact (trap_leaves ht h).cond
  · cases i <;> simp only [Instr.isTrap, not_true_eq_false, Instr.flagDest, reduceCtorEq] at ht hi
    case br nzp off9 => cases h; split <;> rfl
    all_goals
      cases h
      simp

/-- The seven end in `writeResult`, whose flag is that of the register written. -/
theorem exec_of_flagDest {i : Instr} {d : Reg} (hi : i.flagDest = some d) (s : State) :
    ∃ u v, exec i s = .next (State.writeResult u d v) := by
  cases i <;> simp only [Instr.flagDest, Option.some.injEq, reduceCtorEq] at hi
  all_goals
    subst hi
    exact ⟨_, _, rfl⟩

theorem wf_of_exec {i : Instr} {s t : State} (hs : s.mem.wf = true) (h : exec i s = .next t) : t.mem.wf = true := by
  by_cases ht : i.isTrap = true
  · rw [(trap_leaves ht h).mem]; exact hs
  · cases i <;> simp only [Instr.isTrap, not_true_eq_false] at ht
    case ld | ldr => cases h; exact wf_memRead _ hs
    case ldi => cases h; exact wf_memRead _ (wf_memRead _ hs)
    case st | str => cases h; exact wf_writeWord _ _ hs
    case sti => cases h; exact wf_writeWord _ _ (wf_memRead _ hs)
    case br nzp off9 => cases h; split <;> exact hs
    all_goals cases h; exact hs

/-! ## The host's side and memory -/

/-- `t` has the host's side one hooked read of `s` leaves, and its memory too unless a store came after; the read changes nothing
where its address is not KBSR. -/
def State.afterOneRead (s t : State) (store : Bool) : Prop :=
  ∃ a, t.keyboard = s.keyboardAfterRead a ∧ t.draws = s.drawsAfterRead a ∧ (store = false → t.mem = (s.memRead a).2.mem)

theorem afterOneRead_memRead (s : State) (a : Word) (store : Bool) : s.afterOneRead (s.memRead a).2 store :=
  ⟨a, memRead_keyboard s a, memRead_draws s a, fun _ => rfl⟩

theorem afterOneRead_of_quiet {s t : State} {store : Bool} (hk : t.keyboard = s.keyboard) (hd : t.draws = s.draws)
    (hm : store = false → t.mem = s.mem) : s.afterOneRead t store := by
  have hself : (s.memRead Config.kbdr).2 = s := by rw [memRead_of_ne s (by decide)]
  have hread := afterOneRead_memRead s Config.kbdr store
  rw [hself] at hread
  obtain ⟨a, ha, hn, hw⟩ := hread
  exact ⟨a, hk.trans ha, hd.trans hn, fun hs => (hm hs).trans (hw hs)⟩

/-- A poll returns a word that is not KBSR's address, so the second read of LDI polls only if the first did not. -/
theorem pointer_ne_kbsr {s : State} {a : Word} (h : a = Config.kbsr) : (s.memRead a).1 ≠ Config.kbsr := by
  rw [memRead_fst, h]
  rcases wordAfterRead_kbsr s with hw | hw <;> rw [hw] <;> decide

/-- The two reads of LDI leave what one of them leaves. -/
theorem memRead_memRead_snd (s : State) (a : Word) :
    ((s.memRead a).2.memRead (s.memRead a).1).2 = (s.memRead (if a = Config.kbsr then a else (s.memRead a).1)).2 := by
  by_cases ha : a = Config.kbsr
  · rw [if_pos ha, memRead_of_ne _ (pointer_ne_kbsr ha)]
  · rw [if_neg ha, memRead_of_ne s ha]

/-- An instruction that reads no key polls at most once, and but for a store its memory is what the poll left. -/
theorem exec_afterOneRead {i : Instr} {s t : State} (hi : i.readsKey = false) (h : exec i s = .next t) :
    s.afterOneRead t i.isStore := by
  by_cases ht : i.isTrap = true
  · have hl := trap_leaves ht h
    obtain ⟨-, hk, hd⟩ := hl.quiet hi
    exact afterOneRead_of_quiet hk hd fun _ => hl.mem
  · cases i <;> simp only [Instr.isTrap, not_true_eq_false] at ht
    case ld | ldr => cases h; exact afterOneRead_memRead s _ _
    case ldi dr off9 =>
      cases h
      have hread := memRead_memRead_snd s (s.pc + sext off9)
      obtain ⟨a, hk, hd, hm⟩ := afterOneRead_memRead s _ false
      exact ⟨a, (congrArg State.keyboard hread).trans hk, (congrArg State.draws hread).trans hd,
        fun hs => (congrArg State.mem hread).trans (hm hs)⟩
    case sti sr off9 =>
      cases h
      exact ⟨s.pc + sext off9, memRead_keyboard s _, memRead_draws s _, nofun⟩
    case st | str => cases h; exact afterOneRead_of_quiet rfl rfl nofun
    case br nzp off9 => cases h; split <;> exact afterOneRead_of_quiet rfl rfl fun _ => rfl
    all_goals cases h; exact afterOneRead_of_quiet rfl rfl fun _ => rfl

/-- A read takes no draw of the host, or one. -/
theorem host_afterRead (s : State) (a : Word) :
    (s.keyboardAfterRead a = s.keyboard ∧ s.drawsAfterRead a = s.draws) ∨
    (s.keyboardAfterRead a = s.keyboard.tail ∧ s.drawsAfterRead a = if s.keyboard = [] then s.draws + 1 else s.draws) := by
  by_cases ha : a = Config.kbsr
  · exact .inr (by simp [State.keyboardAfterRead, State.drawsAfterRead, ha])
  · exact .inl (by simp [State.keyboardAfterRead, State.drawsAfterRead, ha])

/-- A poll always takes a draw. -/
theorem ne_kbsr_of_quiet {s : State} {a : Word} (hk : s.keyboardAfterRead a = s.keyboard) (hd : s.drawsAfterRead a = s.draws) :
    a ≠ Config.kbsr := by
  rintro rfl
  cases hks : s.keyboard with
  | nil => simp [State.drawsAfterRead, hks] at hd
  | cons k ks => simp [State.keyboardAfterRead, hks] at hk

end Sys2Proof.Machine

namespace Sys2Proof.Proofs
open Sys2Proof.Machine

/-- Settles O4: the fetch, and then the instruction, keep the canonical form. -/
theorem stepKeepsInvariant : Obligations.StepKeepsInvariant := by
  unfold Obligations.StepKeepsInvariant
  intro s t hs h
  by_cases hr : s.run = .running
  · rw [step_of_running hr] at h
    have hfetch : s.fetch.2.mem.wf = true := wf_memRead s.pc hs
    exact wf_of_exec hfetch h
  · rw [step_of_not_running hr] at h
    cases h
    exact hs

/-- Settles O13: by what `run` can be after the instruction, from Running. -/
theorem onlyHaltHaltsOnlyFatalsAbort : Obligations.OnlyHaltHaltsOnlyFatalsAbort := by
  unfold Obligations.OnlyHaltHaltsOnlyFatalsAbort
  intro s t hr h
  rw [step_of_running hr] at h
  have hfetch : s.fetch.2.run = .running := by simp [hr]
  have hrun := run_of_exec (wellFormed_decodeWord _) h
  rw [hfetch] at hrun
  change RunAfter .running s.nextInstr t.run at hrun
  generalize s.nextInstr = i, t.run = r at hrun
  cases hrun with
  | goesOn halt rti res => simp [halt, rti, res]
  | halt | rti | res | puts | putsp => simp

/-- Settles O15: a fetch from KBSR yields an instruction that reads nothing, any other fetch leaves the poll to the instruction. -/
theorem noStepPollsTwice : Obligations.NoStepPollsTwice := by
  unfold Obligations.NoStepPollsTwice
  intro s t hg hin h
  by_cases hr : s.run = .running
  · rw [step_of_running hr] at h
    by_cases hpc : s.pc = Config.kbsr
    · have hquiet : t.keyboard = s.fetch.2.keyboard ∧ t.draws = s.fetch.2.draws := by
        change exec s.nextInstr _ = _ at h
        rcases nextInstr_at_kbsr hpc with hi | hi <;> rw [hi] at h <;> cases h
        · exact ⟨rfl, rfl⟩
        · split <;> exact ⟨rfl, rfl⟩
      rw [hquiet.1, hquiet.2]
      simpa using host_afterRead s s.pc
    · rw [fetch_of_ne hpc] at h
      have hi : (decodeWord (s.rawRead s.pc)).readsKey = false := by
        rw [State.nextInstr, fetch_of_ne hpc] at hg hin
        rw [← Bool.not_eq_true]
        intro hk
        exact (readsKey_of_wellFormed (wellFormed_decodeWord _) hk).elim hg hin
      obtain ⟨a, hk, hd, -⟩ := exec_afterOneRead hi h
      rw [hk, hd]
      exact host_afterRead (s.setPc (s.pc + 1#16)) a
  · rw [step_of_not_running hr] at h
    cases h
    exact .inl ⟨rfl, rfl⟩

/-- Settles O12: a machine that does not run answers itself, and a decoded instruction answers unless it waits. -/
theorem stepAnswersOrWaits : Obligations.StepAnswersOrWaits := by
  unfold Obligations.StepAnswersOrWaits
  intro s
  by_cases hr : s.run = .running
  · rw [step_of_running hr]
    exact (exec_next_or_waits (wellFormed_nextInstr s) s.fetch.2).imp_right fun ⟨hi, h⟩ => ⟨hr, hi, h⟩
  · exact .inl ⟨s, step_of_not_running hr⟩

/-- Settles O14: of the traps only a string walk aborts, and it reads no key; of the others only RTI and RES abort. -/
theorem abortsArePrecise : Obligations.AbortsArePrecise := by
  unfold Obligations.AbortsArePrecise
  intro i s t e hr h he
  by_cases ht : i.isTrap = true
  · have hl := trap_leaves ht h
    have hk : i.readsKey = false := by
      rw [← Bool.not_eq_true]
      intro hk
      rw [hl.run hk, hr] at he
      cases he
    obtain ⟨hregs, hkey, hdraws⟩ := hl.quiet hk
    obtain ⟨bs, hout, -⟩ := hl.out
    refine ⟨fun q => by rw [State.reg, hregs]; rfl, hl.pc, hl.cond, hl.mem, hkey, hdraws, hl.param, ⟨bs, hout⟩, ?_⟩
    rintro (rfl | rfl) <;> cases ht
  · cases i <;> simp only [Instr.isTrap, not_true_eq_false] at ht
    case rti | res =>
      cases h
      exact ⟨fun _ => rfl, rfl, rfl, rfl, rfl, rfl, rfl, ⟨[], (List.append_nil _).symm⟩, fun _ => rfl⟩
    case br nzp off9 => cases h; split at he <;> simp [hr] at he
    all_goals
      cases h
      simp [hr] at he

/-- Settles O23: the seven write a result and its flag, the others neither. -/
theorem sevenInstructionsWriteCond : Obligations.SevenInstructionsWriteCond := by
  unfold Obligations.SevenInstructionsWriteCond
  intro i s t h
  cases hi : i.flagDest with
  | none => exact cond_of_exec hi h
  | some d =>
    obtain ⟨u, v, hw⟩ := exec_of_flagDest hi s
    rw [hw] at h
    cases h
    exact writeResult_cond u d v

/-- Settles O26: traps leave `pc`, and of the others only the transfers set it. -/
theorem onlyTransfersWritePc : Obligations.OnlyTransfersWritePc := by
  unfold Obligations.OnlyTransfersWritePc
  exact fun i s t hi h => pc_of_exec hi h

/-- Settles O27: GETC and IN leave memory alone, and every other instruction that is no store leaves what one read leaves. -/
theorem onlyStoresAndPollsWriteMemory : Obligations.OnlyStoresAndPollsWriteMemory := by
  unfold Obligations.OnlyStoresAndPollsWriteMemory
  intro i s t hs h
  by_cases hk : i.readsKey = true
  · have hm := (trap_leaves (isTrap_of_readsKey hk) h).mem
    exact ⟨fun k _ => by rw [hm], fun _ _ _ => hm⟩
  · rw [Bool.not_eq_true] at hk
    obtain ⟨a, hkey, hdraws, hmem⟩ := exec_afterOneRead hk h
    have hm := hmem hs
    refine ⟨fun k hout => ?_, fun _ hk' hd' => ?_⟩
    · rw [hm]
      refine sameBytesBut_memRead s a k fun w hw => hout w ?_
      split at hw
      · exact hw
      · cases hw
    · have ha : a ≠ Config.kbsr := ne_kbsr_of_quiet (hkey.symm.trans hk') (hdraws.symm.trans hd')
      rw [hm, memRead_of_ne s ha]

/-- Settles O3: the reset memory lists no byte. -/
theorem resetMeetsInvariant : Obligations.ResetMeetsInvariant :=
  wf_reset

/-- Settles O10: the cycle's two forms, with the word of the hooked fetch written out. -/
theorem stepRunsTheDecodedInstruction : Obligations.StepRunsTheDecodedInstruction := by
  unfold Obligations.StepRunsTheDecodedInstruction
  refine fun s hr => ⟨wellFormed_decodeWord _, ?_, fun hpc => step_of_pc_ne hr hpc⟩
  rw [step_of_running hr, fetch_fst, fetch_snd]
  rfl

/-- Settles O11: neither end of a run is Running. -/
theorem terminalStatesStay : Obligations.TerminalStatesStay := by
  unfold Obligations.TerminalStatesStay
  exact ⟨fun s h => step_of_not_running (by rw [h]; nofun), fun s e h => step_of_not_running (by rw [h]; nofun)⟩

end Sys2Proof.Proofs
end

section
/-! Memory as a map (20_memory.md R40, R46, R55): a canonical memory is determined by the words it reads. Then what a read of the
device cells gives (R43, R45) and that a store is there at the next fetch. -/
namespace Sys2Proof.Machine

/-! ## The canonical form is unique -/

/-- The parts of the canonical form at its first entry. -/
theorem wfFrom_cons {lo k : Nat} {b : Byte} {m : Memory} (h : Memory.wfFrom lo ((k, b) :: m) = true) :
    lo ≤ k ∧ k < memBytes ∧ b ≠ Config.unlistedByte ∧ m.wfFrom (k + 1) = true := by
  simp only [Memory.wfFrom, Bool.and_eq_true, decide_eq_true_eq, bne_iff_ne] at h
  obtain ⟨⟨⟨hlo, hk⟩, hb⟩, hm⟩ := h
  exact ⟨hlo, hk, hb, hm⟩

theorem readByte_cons_self (k : Nat) (b : Byte) (m : Memory) : Memory.readByte ((k, b) :: m) k = b :=
  if_pos rfl

theorem readByte_cons_ne {k j : Nat} (b : Byte) (m : Memory) (h : k ≠ j) : Memory.readByte ((k, b) :: m) j = m.readByte j :=
  if_neg h

theorem readByte_below {lo j : Nat} {m : Memory} (hm : m.wfFrom lo = true) (hj : j < lo) : m.readByte j = Config.unlistedByte := by
  induction m generalizing lo with
  | nil => rfl
  | cons c m ih =>
    obtain ⟨k, b⟩ := c
    obtain ⟨hlo, -, -, ht⟩ := wfFrom_cons hm
    rw [readByte_cons_ne b m (by omega), ih ht (by omega)]

theorem readByte_outside {lo j : Nat} {m : Memory} (hm : m.wfFrom lo = true) (hj : memBytes ≤ j) :
    m.readByte j = Config.unlistedByte := by
  induction m generalizing lo with
  | nil => rfl
  | cons c m ih =>
    obtain ⟨k, b⟩ := c
    obtain ⟨-, hk, -, ht⟩ := wfFrom_cons hm
    rw [readByte_cons_ne b m (by omega), ih ht]

/-- A canonical memory reads something else than the unlisted byte at its first key, and the unlisted byte at every earlier key. -/
theorem first_key_le {lo lo' k k' : Nat} {b b' : Byte} {m m' : Memory} (hm : Memory.wfFrom lo ((k, b) :: m) = true)
    (hm' : Memory.wfFrom lo' ((k', b') :: m') = true)
    (h : ∀ j, Memory.readByte ((k, b) :: m) j = Memory.readByte ((k', b') :: m') j) : k' ≤ k := by
  obtain ⟨-, -, hb, -⟩ := wfFrom_cons hm
  obtain ⟨-, -, -, ht'⟩ := wfFrom_cons hm'
  by_contra hlt
  have hk := h k
  rw [readByte_cons_self, readByte_cons_ne b' m' (by omega), readByte_below ht' (by omega)] at hk
  exact hb hk

theorem eq_of_readByte {lo : Nat} {m m' : Memory} (hm : m.wfFrom lo = true) (hm' : m'.wfFrom lo = true)
    (h : ∀ j, m.readByte j = m'.readByte j) : m = m' := by
  induction m generalizing lo m' with
  | nil =>
    cases m' with
    | nil => rfl
    | cons c' m' =>
      obtain ⟨k', b'⟩ := c'
      obtain ⟨-, -, hb', -⟩ := wfFrom_cons hm'
      exact absurd ((readByte_cons_self k' b' m').symm.trans (h k').symm) hb'
  | cons c m ih =>
    obtain ⟨k, b⟩ := c
    obtain ⟨-, -, hb, ht⟩ := wfFrom_cons hm
    cases m' with
    | nil => exact absurd ((readByte_cons_self k b m).symm.trans (h k)) hb
    | cons c' m' =>
      obtain ⟨k', b'⟩ := c'
      obtain rfl : k = k' := Nat.le_antisymm (first_key_le hm' hm fun j => (h j).symm) (first_key_le hm hm' h)
      obtain ⟨-, -, -, ht'⟩ := wfFrom_cons hm'
      obtain rfl : b = b' := by simpa [readByte_cons_self] using h k
      congr 1
      refine ih ht ht' fun j => ?_
      by_cases hj : k = j
      · rw [readByte_below ht (by omega), readByte_below ht' (by omega)]
      · simpa [readByte_cons_ne b _ hj] using h j

theorem readByte_eq_of_readWord {m m' : Memory} {a : Word} (h : m.readWord a = m'.readWord a) :
    m.readByte (wordKey a) = m'.readByte (wordKey a) ∧ m.readByte (wordKey a + 1) = m'.readByte (wordKey a + 1) := by
  have hhi := congrArg hiByte h
  have hlo := congrArg loByte h
  simp only [Memory.readWord, hiByte_wordOfBytes, loByte_wordOfBytes] at hhi hlo
  exact ⟨hhi, hlo⟩

/-- Canonical memories that read alike are equal (log entry 1). -/
theorem eq_of_readWord {m m' : Memory} (hm : m.wf = true) (hm' : m'.wf = true) (h : ∀ a : Word, m.readWord a = m'.readWord a) :
    m = m' := by
  refine eq_of_readByte hm hm' fun j => ?_
  by_cases hj : j < memBytes
  · have hdiv : (BitVec.ofNat 16 (j / 2)).toNat = j / 2 := Nat.mod_eq_of_lt (by simp only [memBytes] at hj; omega)
    obtain ⟨heven, hodd⟩ := readByte_eq_of_readWord (h (BitVec.ofNat 16 (j / 2)))
    rw [wordKey, hdiv] at heven hodd
    rcases Nat.mod_two_eq_zero_or_one j with hpar | hpar
    · rwa [show 2 * (j / 2) = j by omega] at heven
    · rwa [show 2 * (j / 2) + 1 = j by omega] at hodd
  · rw [readByte_outside hm (by omega), readByte_outside hm' (by omega)]

/-! ## The store -/

/-- The unconditional store: the word, the rest of memory and the rest of the state (20_memory.md R46). -/
theorem memWrite_spec (s : State) (a v : Word) :
    (s.memWrite a v).rawRead a = v ∧ (∀ b, b ≠ a → (s.memWrite a v).rawRead b = s.rawRead b) ∧
    s.sameBytesBut (s.memWrite a v) [a] ∧ s.memWrite a v = { s with mem := (s.memWrite a v).mem } :=
  ⟨rawRead_poke_self s a v, fun _ hb => rawRead_poke_ne s v hb, sameBytesBut_poke s a v, rfl⟩

/-! ## The device cells -/

theorem kbdr_ne_kbsr : Config.kbdr ≠ Config.kbsr := by decide

/-- The words of the device cells after a poll that finds a key. -/
theorem wordAfterRead_of_key {s : State} {c : Byte} (h : s.nextPoll = some c) :
    s.wordAfterRead Config.kbsr Config.kbsr = 0x8000#16 ∧ s.wordAfterRead Config.kbsr Config.kbdr = zextByte c := by
  simp [State.wordAfterRead, h, kbdr_ne_kbsr]

/-- The words of the device cells after a poll that finds none. -/
theorem wordAfterRead_of_no_key {s : State} (h : s.nextPoll = none) :
    s.wordAfterRead Config.kbsr Config.kbsr = 0x0000#16 ∧ s.wordAfterRead Config.kbsr Config.kbdr = s.rawRead Config.kbdr := by
  simp [State.wordAfterRead, h, kbdr_ne_kbsr]

@[simp] theorem keyboardAfterRead_kbsr (s : State) : s.keyboardAfterRead Config.kbsr = s.keyboard.tail :=
  if_pos rfl

@[simp] theorem drawsAfterRead_kbsr (s : State) :
    s.drawsAfterRead Config.kbsr = if s.keyboard = [] then s.draws + 1 else s.draws := by
  simp [State.drawsAfterRead]

/-- A read of KBDR gives the stored word and leaves the state. -/
theorem memRead_kbdr (s : State) : s.memRead Config.kbdr = (s.rawRead Config.kbdr, s) :=
  memRead_of_ne s kbdr_ne_kbsr

end Sys2Proof.Machine

namespace Sys2Proof.Proofs
open Sys2Proof.Machine

/-- Settles O18: byte by byte, by induction on the two lists. -/
theorem equalMemoriesAreEqualData : Obligations.EqualMemoriesAreEqualData := by
  unfold Obligations.EqualMemoriesAreEqualData
  exact fun m m' hm hm' h => eq_of_readWord hm hm' h

/-- Settles O17: the write laws for canonical memories hold of every word read, so of the memories. -/
theorem memoryWritesReadBackAndCommute : Obligations.MemoryWritesReadBackAndCommute := by
  unfold Obligations.MemoryWritesReadBackAndCommute
  refine ⟨memWrite_spec, ?_⟩
  intro m a b v w hm
  refine ⟨?_, fun hab => ?_, ?_⟩
  · refine eq_of_readWord (wf_writeWord a w (wf_writeWord a v hm)) (wf_writeWord a w hm) fun c => ?_
    simp only [readWord_writeWord]
    split_ifs <;> rfl
  · refine eq_of_readWord (wf_writeWord b w (wf_writeWord a v hm)) (wf_writeWord a v (wf_writeWord b w hm)) fun c => ?_
    simp only [readWord_writeWord]
    split_ifs with hcb hca
    · exact absurd (hca.symm.trans hcb) hab
    all_goals rfl
  · refine eq_of_readWord (wf_writeWord a _ hm) hm fun c => ?_
    rw [readWord_writeWord]
    split_ifs with hca
    · rw [hca]
    · rfl

/-- Settles O19: the words by R43's text, the frame by what a hooked read leaves. -/
theorem readOfKbsrPolls : Obligations.ReadOfKbsrPolls := by
  unfold Obligations.ReadOfKbsrPolls
  intro s
  change ∃ t, (s.memRead Config.kbsr).2 = t ∧ _
  refine ⟨_, rfl, ?_, ?_, memRead_regs s _, memRead_pc s _, memRead_cond s _, memRead_run s _, memRead_out s _, ?_, ?_⟩
  · cases hp : s.nextPoll with
    | some c =>
      obtain ⟨hsr, hdr⟩ := wordAfterRead_of_key hp
      exact ⟨(memRead_fst s _).trans hsr, (rawRead_memRead s _ _).trans hsr, (rawRead_memRead s _ _).trans hdr⟩
    | none =>
      obtain ⟨hsr, hdr⟩ := wordAfterRead_of_no_key hp
      exact ⟨(memRead_fst s _).trans hsr, (rawRead_memRead s _ _).trans hsr, (rawRead_memRead s _ _).trans hdr⟩
  · exact sameBytesBut_memRead s Config.kbsr
  · rw [memRead_keyboard, keyboardAfterRead_kbsr]
  · rw [memRead_draws, drawsAfterRead_kbsr]

/-- Settles O20: a poll shortens the list of draws or counts a free one. -/
theorem onlyKbsrReadsHaveEffects : Obligations.OnlyKbsrReadsHaveEffects := by
  unfold Obligations.OnlyKbsrReadsHaveEffects
  refine ⟨fun s a ha => memRead_of_ne s ha, fun s => ?_⟩
  change ((s.memRead Config.kbsr).2.keyboard.length + 1 = _ ∧ (s.memRead Config.kbsr).2.draws = _) ∨
    (_ ∧ (s.memRead Config.kbsr).2.keyboard = _ ∧ (s.memRead Config.kbsr).2.draws = _)
  cases hk : s.keyboard <;> simp [hk]

/-- Settles O21: KBDR is no poll's address, and only a poll that finds a key writes it. -/
theorem kbdrReadIsPlain : Obligations.KbdrReadIsPlain := by
  unfold Obligations.KbdrReadIsPlain
  have hread (s : State) : (s.memRead Config.kbdr).1 = s.rawRead Config.kbdr := by rw [memRead_kbdr]
  refine ⟨memRead_kbdr, fun s v => ?_, fun s c h => ?_, fun s h => ?_⟩
  · exact (hread _).trans (rawRead_poke_self s _ v)
  · exact (hread _).trans ((rawRead_memRead s _ _).trans (wordAfterRead_of_key h).2)
  · exact (hread _).trans ((rawRead_memRead s _ _).trans (wordAfterRead_of_no_key h).2)

/-- Settles O16: each store leaves a Running machine at the stored word, and the next fetch reads it. -/
theorem storeIsSeenByTheNextFetch : Obligations.StoreIsSeenByTheNextFetch := by
  unfold Obligations.StoreIsSeenByTheNextFetch
  intro s sr hr hpc hnext hcases
  have hstep := step_of_pc_ne hr hpc
  obtain ⟨t, ht, hrun, htpc, hword⟩ : ∃ t, step s = .next t ∧ t.run = .running ∧ t.pc = s.pc + 1#16 ∧
      t.rawRead (s.pc + 1#16) = s.reg sr := by
    rcases hcases with ⟨off9, hi, hea⟩ | ⟨baseR, off6, hi, hea⟩ | ⟨off9, hi, hea⟩ <;> rw [hi] at hstep
    · exact ⟨_, hstep, hr, rfl, by simp [hea]⟩
    · exact ⟨_, hstep, hr, rfl, by simp [hea]⟩
    · refine ⟨_, hstep, by simp [hr], by simp, ?_⟩
      have hptr : ((s.setPc (s.pc + 1#16)).memRead (s.pc + 1#16 + sext off9)).1 = s.pc + 1#16 := (memRead_fst _ _).trans hea
      show ((State.memRead _ _).2.poke (State.memRead _ _).1 (s.reg sr)).rawRead _ = _
      simp only [State.pcRelative_eq, State.setPc_pc]
      rw [hptr, rawRead_poke_self]
  refine ⟨t, ht, htpc, htpc ▸ hword, ?_⟩
  rw [step_of_pc_ne hrun (htpc ▸ hnext), htpc, hword]
  rfl

/-- Settles O2: the reset record, register by register; an empty memory reads as two unlisted bytes everywhere. -/
theorem resetChosenValues : Obligations.ResetChosenValues := by
  unfold Obligations.ResetChosenValues
  refine ⟨fun r => ?_, rfl, fun a => ?_, rfl, rfl⟩
  · cases r <;> rfl
  · show wordOfBytes Config.unlistedByte Config.unlistedByte = 0x0000#16
    decide

end Sys2Proof.Proofs
end

section
/-! The operate instructions, the control transfers and the loads and stores: result, COND and frame of each. -/
namespace Sys2Proof

/-- A bit of a word that matches a row, named. -/
theorem bit_of_row_eq {w m v : Word} (h : w &&& m = v) (k : Nat) (hk : k < 16) (hm : m[k] = true) {b : Bool} (hb : v[k] = b) :
    w[k] = b :=
  (bit_of_row h k hk hm).trans hb

end Sys2Proof

namespace Sys2Proof.Machine

/-! ## Result writes -/

theorem sameRegsBut_setReg (s : State) (d : Reg) (v : Word) : s.sameRegsBut (s.setReg d v) d :=
  fun _ hq => State.reg_setReg_ne s v hq

/-- The result write of the operate instructions and of LEA: the register, its flag, and nothing else. -/
theorem writeResult_spec (s : State) (d : Reg) (v : Word) :
    (s.writeResult d v).reg d = v ∧ s.sameRegsBut (s.writeResult d v) d ∧
    s.writeResult d v = { s with regs := (s.writeResult d v).regs, cond := condOf v } :=
  ⟨State.reg_setReg_self s d v, sameRegsBut_setReg s d v, rfl⟩

theorem sext_one : sext 1#5 = 1#16 := by decide

/-- Two's complement: complement, one more, and the sum make a difference. -/
theorem not_add_one_add (a b : Word) : ~~~ b + 1#16 + a = a - b := by
  rw [← BitVec.neg_eq_not_add, BitVec.add_comm, BitVec.sub_eq_add_neg]

/-! ## Control -/

/-- JMP's base field 7 is RET's row. -/
theorem decodeJmp_ofBits (b : BitVec 3) : decodeJmp (Reg.ofBits b) = if b = 0b111#3 then .ret else .jmp (Reg.ofBits b) := by
  revert b; decide

theorem exec_br (nzp : BitVec 3) (off9 : BitVec 9) (s : State) :
    exec (.br nzp off9) s =
      .next { s with pc := if nzp &&& s.cond.enc ≠ 0b000#3 then s.pc + sext off9 else s.pc } := by
  simp only [exec, execBr, branchTaken]
  by_cases h : nzp &&& s.cond.enc = 0b000#3
  · simp [h]
  · simp [h, State.setPc]

theorem exec_ret_of_link {u : State} {a : Word} (h : u.reg .r7 = a) : exec .ret u = .next { u with pc := a } := by
  subst h; rfl

/-! ## Loads and stores -/

/-- The load LD, LDI and LDR end in (42_load_store.md R140, R141, R142). -/
theorem loadInto_spec (s : State) (dr : Reg) (ea : Word) :
    (s.loadInto dr ea).reg dr = s.wordAfterRead ea ea ∧ s.sameRegsBut (s.loadInto dr ea) dr ∧
    (s.loadInto dr ea).cond = condOf (s.wordAfterRead ea ea) ∧ (s.loadInto dr ea).pc = s.pc ∧
    (s.loadInto dr ea).run = s.run ∧ (s.loadInto dr ea).out = s.out ∧ s.readLeaves (s.loadInto dr ea) ea :=
  ⟨by simp, fun q hq => by simp [hq], by simp, by simp, by simp, by simp,
    readLeaves_congr (readLeaves_memRead s ea) rfl rfl rfl⟩

/-- A hooked read changes memory and the host's side alone. -/
theorem memRead_frame (s : State) (a : Word) :
    (s.memRead a).2 =
      { s with mem := (s.memRead a).2.mem, keyboard := (s.memRead a).2.keyboard, draws := (s.memRead a).2.draws } := by
  rw [memRead_keyboard, memRead_draws]
  exact deviceHook_frame s a

end Sys2Proof.Machine

namespace Sys2Proof.Proofs
open Sys2Proof.Machine

/-! ## Operate -/

/-- Settles O29: the register form's row has bit 5 clear; the sum is a result write. -/
theorem addRegisterAdds : Obligations.AddRegisterAdds := by
  unfold Obligations.AddRegisterAdds
  refine ⟨fun w hw => decodeWord_of_addReg (opcode_of_row hw rfl rfl) (bit_of_row_eq hw 5 (by decide) rfl rfl), fun dr sr1 sr2 s => ?_⟩
  obtain ⟨hres, hregs, hframe⟩ := writeResult_spec s dr (s.reg sr1 + s.reg sr2)
  exact ⟨_, rfl, hres, hregs, hframe, (congrArg BitVec.toNat hres).trans (BitVec.toNat_add _ _)⟩

/-- Settles O30: the immediate form's row has bit 5 set; the sum is a result write. -/
theorem addImmediateAdds : Obligations.AddImmediateAdds := by
  unfold Obligations.AddImmediateAdds
  exact ⟨fun w hw => decodeWord_of_addImm (opcode_of_row hw rfl rfl) (bit_of_row_eq hw 5 (by decide) rfl rfl),
    fun dr sr1 imm5 s => ⟨_, rfl, writeResult_spec s dr (s.reg sr1 + sext imm5)⟩⟩

/-- Settles O31: as ADD, and the conjunction bit by bit. -/
theorem andRegisterAnds : Obligations.AndRegisterAnds := by
  unfold Obligations.AndRegisterAnds
  refine ⟨fun w hw => decodeWord_of_andReg (opcode_of_row hw rfl rfl) (bit_of_row_eq hw 5 (by decide) rfl rfl), fun dr sr1 sr2 s => ?_⟩
  obtain ⟨hres, hregs, hframe⟩ := writeResult_spec s dr (s.reg sr1 &&& s.reg sr2)
  exact ⟨_, rfl, hres, hregs, hframe, fun k => (congrArg (·.getLsbD k) hres).trans BitVec.getLsbD_and⟩

/-- Settles O32: as ADD's immediate form. -/
theorem andImmediateAnds : Obligations.AndImmediateAnds := by
  unfold Obligations.AndImmediateAnds
  exact ⟨fun w hw => decodeWord_of_andImm (opcode_of_row hw rfl rfl) (bit_of_row_eq hw 5 (by decide) rfl rfl),
    fun dr sr1 imm5 s => ⟨_, rfl, writeResult_spec s dr (s.reg sr1 &&& sext imm5)⟩⟩

/-- Settles O33: the low six bits stand outside the row's mask, and the complement is read bit by bit. -/
theorem notComplements : Obligations.NotComplements := by
  unfold Obligations.NotComplements
  refine ⟨fun w hw => decodeWord_of_not (opcode_of_row hw rfl rfl), fun dr sr s => ?_⟩
  obtain ⟨hres, hregs, hframe⟩ := writeResult_spec s dr (~~~ s.reg sr)
  refine ⟨_, rfl, hres, hregs, hframe, fun k hk => (congrArg (·.getLsbD k) hres).trans ?_⟩
  simp [hk]

/-- Settles O34: the three results in turn, with `a` out of the way of the writes to `d`. -/
theorem subtractionByComplement : Obligations.SubtractionByComplement := by
  unfold Obligations.SubtractionByComplement
  intro d a b s had
  let t := s.writeResult d (~~~ s.reg b)
  let u := t.writeResult d (t.reg d + sext 1#5)
  have hu : u.reg d + u.reg a = s.reg a - s.reg b := by
    simp [u, t, had, sext_one, not_add_one_add]
  refine ⟨t, u, u.writeResult d (u.reg d + u.reg a), rfl, rfl, rfl, ?_, ?_, fun q hq => ?_⟩
  · rw [(writeResult_spec u d _).1, hu]
  · simp [hu]
  · simp [u, t, hq]

/-! ## Control -/

/-- Settles O35: either mask bit decides between the target and the fetched `pc`. -/
theorem brBranchesOnMask : Obligations.BrBranchesOnMask := by
  unfold Obligations.BrBranchesOnMask
  exact ⟨fun w hw => decodeWord_of_br (opcode_of_row hw rfl rfl), exec_br⟩

/-- Settles O36: the reading of the base field is the one place where the two rows part. -/
theorem jmpAndRetJumpToRegister : Obligations.JmpAndRetJumpToRegister := by
  unfold Obligations.JmpAndRetJumpToRegister
  exact ⟨fun w hw => (decodeWord_of_jmp (opcode_of_row hw rfl rfl)).trans (decodeJmp_ofBits _), fun _ _ => rfl, fun _ => rfl⟩

/-- Settles O37: the link goes to R7 alone, and RET reads it back. -/
theorem jsrLinksAndBranches : Obligations.JsrLinksAndBranches := by
  unfold Obligations.JsrLinksAndBranches
  refine ⟨fun w hw => decodeWord_of_jsr (opcode_of_row hw rfl rfl) (bit_of_row_eq hw 11 (by decide) rfl rfl), fun off11 s => ?_⟩
  have hlink : (s.link.setPc (s.pcRelative off11)).reg .r7 = s.pc := State.reg_setReg_self s .r7 s.pc
  exact ⟨_, rfl, hlink, sameRegsBut_setReg s .r7 s.pc, rfl, fun u hu => exec_ret_of_link (hu.trans hlink)⟩

/-- Settles O38: the base register is read from the state with the link. -/
theorem jsrrLinksFirst : Obligations.JsrrLinksFirst := by
  unfold Obligations.JsrrLinksFirst
  refine ⟨fun w hw => decodeWord_of_jsrr (opcode_of_row hw rfl rfl) (bit_of_row_eq hw 11 (by decide) rfl rfl), fun baseR s => ?_⟩
  have htarget : s.link.reg baseR = if baseR = .r7 then s.pc else s.reg baseR := State.reg_setReg s .r7 baseR s.pc
  exact ⟨_, rfl, State.reg_setReg_self s .r7 s.pc, sameRegsBut_setReg s .r7 s.pc, congrArg s.link.setPc htarget⟩

/-! ## Loads and stores -/

/-- Settles O39: a load from the pc-relative address. -/
theorem ldLoads : Obligations.LdLoads := by
  unfold Obligations.LdLoads
  exact ⟨fun w hw => decodeWord_of_ld (opcode_of_row hw rfl rfl), fun dr off9 s => ⟨_, rfl, loadInto_spec s dr _⟩⟩

/-- Settles O40: a load from the base register's address, which is read before the destination is written. -/
theorem ldrLoads : Obligations.LdrLoads := by
  unfold Obligations.LdrLoads
  exact ⟨fun w hw => decodeWord_of_ldr (opcode_of_row hw rfl rfl), fun dr baseR off6 s => ⟨_, rfl, loadInto_spec s dr _⟩⟩

/-- Settles O41: the load from the pointer, in the state the pointer's read left; a pointer that was polled is no poll's address. -/
theorem ldiLoadsIndirect : Obligations.LdiLoadsIndirect := by
  unfold Obligations.LdiLoadsIndirect
  refine ⟨fun w hw => decodeWord_of_ldi (opcode_of_row hw rfl rfl), fun dr off9 s m p hread => ?_⟩
  have hm : m = (s.memRead (s.pc + sext off9)).2 := (congrArg Prod.snd hread).symm
  have hp : p = (s.memRead (s.pc + sext off9)).1 := (congrArg Prod.fst hread).symm
  have hexec : exec (.ldi dr off9) s = .next (m.loadInto dr p) := by rw [hm, hp]; rfl
  obtain ⟨hres, hregs, hcond, hpc, hrun, hout, hleaves⟩ := loadInto_spec m dr p
  refine ⟨_, hexec, hp.trans (memRead_fst s _), hres, fun q hq => ?_, hcond, ?_, ?_, ?_, hm ▸ readLeaves_memRead s _, hleaves,
    fun ha => hp ▸ pointer_ne_kbsr ha⟩
  · rw [hregs q hq, hm, memRead_reg]
  · rw [hpc, hm, memRead_pc]
  · rw [hrun, hm, memRead_run]
  · rw [hout, hm, memRead_out]

/-- Settles O42: a result write of the address itself, so no read. -/
theorem leaComputesAddress : Obligations.LeaComputesAddress := by
  unfold Obligations.LeaComputesAddress
  exact ⟨fun w hw => decodeWord_of_lea (opcode_of_row hw rfl rfl),
    fun dr off9 s => ⟨_, rfl, writeResult_spec s dr (s.pc + sext off9)⟩⟩

/-- Settles O43: the unconditional store at the pc-relative address. -/
theorem stStores : Obligations.StStores := by
  unfold Obligations.StStores
  refine ⟨fun w hw => decodeWord_of_st (opcode_of_row hw rfl rfl), fun sr off9 s ea hea => ?_⟩
  subst hea
  exact ⟨_, rfl, memWrite_spec s _ (s.reg sr)⟩

/-- Settles O44: the unconditional store at the base register's address. -/
theorem strStores : Obligations.StrStores := by
  unfold Obligations.StrStores
  refine ⟨fun w hw => decodeWord_of_str (opcode_of_row hw rfl rfl), fun sr baseR off6 s ea hea => ?_⟩
  subst hea
  exact ⟨_, rfl, memWrite_spec s _ (s.reg sr)⟩

/-- Settles O45: the store to the pointer, in the state the pointer's read left. -/
theorem stiStoresIndirect : Obligations.StiStoresIndirect := by
  unfold Obligations.StiStoresIndirect
  refine ⟨fun w hw => decodeWord_of_sti (opcode_of_row hw rfl rfl), fun sr off9 s m p hread => ?_⟩
  have hm : m = (s.memRead (s.pc + sext off9)).2 := (congrArg Prod.snd hread).symm
  have hp : p = (s.memRead (s.pc + sext off9)).1 := (congrArg Prod.fst hread).symm
  have hexec : exec (.sti sr off9) s = .next (m.memWrite p (s.reg sr)) := by rw [hm, hp]; rfl
  have hframe : m = { s with mem := m.mem, keyboard := m.keyboard, draws := m.draws } := by rw [hm]; exact memRead_frame s _
  obtain ⟨hword, hwords, hbytes, -⟩ := memWrite_spec m p (s.reg sr)
  refine ⟨_, hexec, hp.trans (memRead_fst s _), hm ▸ readLeaves_memRead s _, hword, hwords, hbytes, ?_⟩
  exact congrArg (fun u : State => { u with mem := (m.memWrite p (s.reg sr)).mem }) hframe

end Sys2Proof.Proofs
end

section
/-! The TRAP services (43_trap.md): the key GETC and IN read, the strings PUTS and PUTSP write, and the state a service does not
look at. -/
namespace Sys2Proof.Machine

/-! ## GETC and IN -/

/-- A settled key is taken, and the waits before it are passed over (log entry 10). -/
theorem consoleGetChar_of_key {s : State} {n : Nat} {c : Byte} {rest : List (Option Byte)}
    (h : s.keyboard = List.replicate n none ++ some c :: rest) : s.consoleGetChar = some (c, { s with keyboard := rest }) := by
  rw [State.consoleGetChar, firstKey_eq_some.mpr ⟨n, h⟩]

/-- With no settled key the host's free draw decides (log entry 11). -/
theorem consoleGetChar_of_waits {s : State} (h : ∀ k ∈ s.keyboard, k = none) :
    s.consoleGetChar = (Config.keyDraw s.draws).map fun c => (c, { s with keyboard := [], draws := s.draws + 1 }) := by
  rw [State.consoleGetChar, firstKey_eq_none.mpr h]
  cases Config.keyDraw s.draws <;> rfl

theorem getcService_of_key {s s' : State} {c : Byte} (h : s.consoleGetChar = some (c, s')) :
    getcService s = .next (s'.setReg .r0 (zextByte c)) := by
  rw [getcService, h]

theorem getcService_of_none {s : State} (h : s.consoleGetChar = none) : getcService s = .fault .waitingForKey := by
  rw [getcService, h]

theorem inService_of_key {s s' : State} {c : Byte} (h : (s.consolePutChars Config.inPrompt).consoleGetChar = some (c, s')) :
    inService s = .next ((s'.consolePutChar c).setReg .r0 (zextByte c)) := by
  rw [inService, h]

theorem inService_of_none {s : State} (h : (s.consolePutChars Config.inPrompt).consoleGetChar = none) :
    inService s = .fault .waitingForKey := by
  rw [inService, h]

/-- ConsoleGetChar looks at the host's side alone: two states that agree there take the same key, or both wait. -/
theorem consoleGetChar_congr {s u : State} (hk : u.keyboard = s.keyboard) (hd : u.draws = s.draws) :
    (∃ c ks n, s.consoleGetChar = some (c, { s with keyboard := ks, draws := n }) ∧
      u.consoleGetChar = some (c, { u with keyboard := ks, draws := n })) ∨
    (s.consoleGetChar = none ∧ u.consoleGetChar = none) := by
  unfold State.consoleGetChar
  rw [hk, hd]
  cases firstKey s.keyboard with
  | some p => exact .inl ⟨p.1, p.2, s.draws, rfl, by rw [← hd]⟩
  | none =>
    cases Config.keyDraw s.draws with
    | some c => exact .inl ⟨c, [], s.draws + 1, rfl, rfl⟩
    | none => exact .inr ⟨rfl, rfl⟩

/-! ## PUTS and PUTSP -/

/-- From the address in R0 on a string runs to a word that stops it, or to the end of memory. -/
theorem exists_stringIs (s : State) (stop : Word → Bool) :
    ∃ ws : List Word, (∀ w ∈ ws, stop w = false) ∧ s.stringIs ws ∧
      (s.stringEnd ws = 65536 ∨ (s.stringEnd ws < 65536 ∧ stop (s.wordAfterString ws) = true)) :=
  exists_string s.mem stop _ (s.reg .r0) rfl

/-- PUTSP over a string, for its three ends, in either build (43_trap.md R175, R179). -/
theorem exec_putsp_string (mode : PutspHighByte) (s : State) (ws : List Word) (hmode : s.putspHighByte = mode)
    (hhi : ∀ w ∈ ws, w.extractLsb 15 8 ≠ 0x00#8) (hs : s.stringIs ws) :
    (s.stringEnd ws < 65536 → s.wordAfterString ws = 0x0000#16 →
      exec .putsp s = .next { s with out := s.out ++ ws.flatMap (packedChars mode) }) ∧
    (s.stringEnd ws < 65536 → s.wordAfterString ws ≠ 0x0000#16 → (s.wordAfterString ws).extractLsb 15 8 = 0x00#8 →
      exec .putsp s =
        .next { s with out := s.out ++ ws.flatMap (packedChars mode) ++ [(s.wordAfterString ws).extractLsb 7 0] }) ∧
    (s.stringEnd ws = 65536 →
      exec .putsp s =
        .next { s with out := s.out ++ ws.flatMap (packedChars mode), run := .aborted .stringPastEnd }) := by
  obtain ⟨hzero, hhalf, hpast⟩ := putspScan_eq mode s.mem ws (s.reg .r0) hhi hs
  rw [exec_putsp hmode]
  refine ⟨fun hend hw => ?_, fun hend hw hhw => ?_, fun hend => ?_⟩
  · rw [hzero hend hw]; rfl
  · rw [hhalf hend hw hhw, emitScan_bytes_end, List.append_assoc]; rfl
  · rw [hpast hend]; rfl

theorem packedChars_byte_eq_logical {w : Word} (h : w.extractLsb 15 8 = 0x01#8) :
    packedChars .byte w = packedChars .logical w := by
  simp only [packedChars, h]

/-- Over words of high byte 0x01 the two readings of PUTSP write the same. -/
theorem putspScan_byte_eq_logical (m : Memory) (a : Word) (ws : List Word) (hhi : ∀ w ∈ ws, w.extractLsb 15 8 = 0x01#8)
    (hs : ∀ (k : Nat) (w : Word), ws[k]? = some w → m.readWord (a + BitVec.ofNat 16 k) = w)
    (hend : a.toNat + ws.length = 65536 ∨
      (a.toNat + ws.length < 65536 ∧ (m.readWord (a + BitVec.ofNat 16 ws.length)).extractLsb 15 8 = 0x00#8)) :
    putspScan .byte m (wordsLeft a) a = putspScan .logical m (wordsLeft a) a := by
  have hne : ∀ w ∈ ws, w.extractLsb 15 8 ≠ 0x00#8 := fun w hw => by rw [hhi w hw]; decide
  have hchars : ws.flatMap (packedChars .byte) = ws.flatMap (packedChars .logical) :=
    List.flatMap_congr fun w hw => packedChars_byte_eq_logical (hhi w hw)
  obtain ⟨bzero, bhalf, bpast⟩ := putspScan_eq .byte m ws a hne hs
  obtain ⟨lzero, lhalf, lpast⟩ := putspScan_eq .logical m ws a hne hs
  rcases hend with hend | ⟨hend, hlast⟩
  · rw [bpast hend, lpast hend, hchars]
  · by_cases hw : m.readWord (a + BitVec.ofNat 16 ws.length) = 0x0000#16
    · rw [bzero hend hw, lzero hend hw, hchars]
    · rw [bhalf hend hw hlast, lhalf hend hw hlast, hchars]

/-! ## The vector -/

theorem exec_trap_of_toNat {vec v : BitVec 8} (h : vec.toNat = v.toNat) (s : State) :
    exec (.trap vec) s = exec (decodeTrap v) s := by
  rw [BitVec.eq_of_toNat_eq h, exec_decodeTrap]

/-- Every trap row does what the row of some word does, which walks a string only if the row itself does. -/
theorem exists_wellFormed_trap {i : Instr} (hi : i.isTrap = true) :
    ∃ j : Instr, j.wellFormed = true ∧ j.isTrap = true ∧ (∀ s, exec i s = exec j s) ∧
      (j = .puts → i = .puts ∨ i = .trap 0x22#8) ∧ (j = .putsp → i = .putsp ∨ i = .trap 0x24#8) := by
  cases i
  case trap vec =>
    refine ⟨decodeTrap vec, wellFormed_decodeTrap vec, ?_, fun s => (exec_decodeTrap vec s).symm, ?_, ?_⟩
    all_goals revert vec; decide
  case getc | out | puts | inKey | putsp | halt => exact ⟨_, rfl, rfl, fun _ => rfl, .inl, .inl⟩
  all_goals cases hi

/-! ## What a trap does not look at -/

theorem sameOutcome_mono {r r' : State → State → Prop} {a b : Host.Outcome State Fault Refusal} (h : sameOutcome r a b)
    (hr : ∀ t u, a = .next t → r t u → r' t u) : sameOutcome r' a b := by
  rcases h with ⟨t, u, ha, hb, htu⟩ | h | h
  · exact .inl ⟨t, u, ha, hb, hr t u ha htu⟩
  · exact .inr (.inl h)
  · exact .inr (.inr h)

/-- The state with another memory and another condition code: the two parts of it a trap may be blind to. -/
def State.withMemCond (s : State) (m : Memory) (c : Cond) : State := { s with mem := m, cond := c }

/-- GETC and IN answer alike in states that differ in memory and COND. -/
theorem getcService_withMemCond (s : State) (m : Memory) (c : Cond) :
    sameOutcome (fun t u => u = t.withMemCond m c) (getcService s) (getcService (s.withMemCond m c)) := by
  rcases consoleGetChar_congr (s := s) (u := s.withMemCond m c) rfl rfl with ⟨k, ks, n, hs, hu⟩ | ⟨hs, hu⟩
  · exact .inl ⟨_, _, getcService_of_key hs, getcService_of_key hu, rfl⟩
  · exact .inr (.inl ⟨_, getcService_of_none hs, getcService_of_none hu⟩)

theorem inService_withMemCond (s : State) (m : Memory) (c : Cond) :
    sameOutcome (fun t u => u = t.withMemCond m c) (inService s) (inService (s.withMemCond m c)) := by
  rcases consoleGetChar_congr (s := s.consolePutChars Config.inPrompt)
    (u := (s.withMemCond m c).consolePutChars Config.inPrompt) rfl rfl with ⟨k, ks, n, hs, hu⟩ | ⟨hs, hu⟩
  · exact .inl ⟨_, _, inService_of_key hs, inService_of_key hu, rfl⟩
  · exact .inr (.inl ⟨_, inService_of_none hs, inService_of_none hu⟩)

theorem emitScan_withMemCond (s : State) (m : Memory) (c : Cond) (scan : StringScan) :
    (s.withMemCond m c).emitScan scan = (s.emitScan scan).withMemCond m c := by
  rw [emitScan_eq, emitScan_eq]
  rfl

/-- A trap row of a word answers alike whatever COND is and whatever memory holds, but for the words a string walk may read. -/
theorem trap_withMemCond_of_wellFormed {i : Instr} (hi : i.wellFormed = true) (ht : i.isTrap = true) (s : State) (m : Memory)
    (c : Cond)
    (hs : i = .puts ∨ i = .putsp → ∀ a : Word, (s.reg .r0).toNat ≤ a.toNat → m.readWord a = s.rawRead a) :
    sameOutcome (fun t u => u = t.withMemCond m c) (exec i s) (exec i (s.withMemCond m c)) := by
  cases i <;> simp only [Instr.isTrap, Bool.false_eq_true] at ht
  case getc => exact getcService_withMemCond s m c
  case inKey => exact inService_withMemCond s m c
  case out | halt => exact .inl ⟨_, _, rfl, rfl, rfl⟩
  case trap vec =>
    exact .inl ⟨_, _, exec_trap_of_wellFormed vec s hi, exec_trap_of_wellFormed vec _ hi, rfl⟩
  case puts =>
    have hscan := putsScan_congr s.mem m _ (s.reg .r0) rfl (hs (.inl rfl))
    refine .inl ⟨_, _, rfl, rfl, ?_⟩
    rw [← hscan]
    exact emitScan_withMemCond s m c _
  case putsp =>
    have hscan := putspScan_congr s.putspHighByte s.mem m _ (s.reg .r0) rfl (hs (.inr rfl))
    refine .inl ⟨_, _, rfl, rfl, ?_⟩
    rw [← hscan]
    exact emitScan_withMemCond s m c _

/-- The same for a trap by row or by vector. -/
theorem trap_withMemCond {i : Instr} (ht : i.isTrap = true) (s : State) (m : Memory) (c : Cond)
    (hs : i = .puts ∨ i = .putsp ∨ i = .trap 0x22#8 ∨ i = .trap 0x24#8 →
      ∀ a : Word, (s.reg .r0).toNat ≤ a.toNat → m.readWord a = s.rawRead a) :
    sameOutcome (fun t u => u = t.withMemCond m c) (exec i s) (exec i (s.withMemCond m c)) := by
  obtain ⟨j, hj, htj, hexec, hputs, hputsp⟩ := exists_wellFormed_trap ht
  rw [hexec, hexec]
  refine trap_withMemCond_of_wellFormed hj htj s m c fun hwalk => hs ?_
  rcases hwalk with h | h
  · rcases hputs h with h | h
    · exact .inl h
    · exact .inr (.inr (.inl h))
  · rcases hputsp h with h | h
    · exact .inr (.inl h)
    · exact .inr (.inr (.inr h))

/-- A trap in another memory: its answer's memory is that one, and nothing else of it differs. -/
theorem trap_withMem {i : Instr} (ht : i.isTrap = true) (s : State) (m : Memory)
    (hs : i = .puts ∨ i = .putsp ∨ i = .trap 0x22#8 ∨ i = .trap 0x24#8 →
      ∀ a : Word, (s.reg .r0).toNat ≤ a.toNat → m.readWord a = s.rawRead a) :
    sameOutcome (fun t u => u = { t with mem := m }) (exec i s) (exec i { s with mem := m }) := by
  refine sameOutcome_mono (trap_withMemCond ht s m s.cond hs) fun t u h hu => ?_
  rw [hu, ← (trap_leaves ht h).cond]
  rfl

/-- A trap under another condition code. -/
theorem trap_withCond {i : Instr} (ht : i.isTrap = true) (s : State) (c : Cond) :
    sameOutcome (fun t u => u = { t with cond := c }) (exec i s) (exec i { s with cond := c }) := by
  refine sameOutcome_mono (trap_withMemCond ht s s.mem c fun _ _ _ => rfl) fun t u h hu => ?_
  rw [hu, ← (trap_leaves ht h).mem]
  rfl

/-! ## What a hooked read does not look at -/

theorem deviceHook_withCond (s : State) (c : Cond) (a : Word) :
    State.deviceHook { s with cond := c } a = { s.deviceHook a with cond := c } := by
  unfold State.deviceHook
  split_ifs
  · rw [consolePoll_fst, consolePoll_fst, consolePoll_snd, consolePoll_snd]
    change State.latchPoll _ s.nextPoll = _
    cases s.nextPoll <;> rfl
  · rfl

theorem memRead_withCond (s : State) (c : Cond) (a : Word) :
    State.memRead { s with cond := c } a = ((s.memRead a).1, { (s.memRead a).2 with cond := c }) := by
  rw [State.memRead, deviceHook_withCond]
  rfl

/-- A load sets COND itself, so the COND before it is gone. -/
theorem loadInto_withCond (s : State) (c : Cond) (dr : Reg) (ea : Word) :
    State.loadInto { s with cond := c } dr ea = s.loadInto dr ea := by
  rw [State.loadInto, memRead_withCond]
  rfl

end Sys2Proof.Machine

namespace Sys2Proof.Proofs
open Sys2Proof.Machine

/-- Settles O24: the traps by what they are blind to, the loads and STI by the hooked read, the rest without a look at COND. -/
theorem onlyBrReadsCond : Obligations.OnlyBrReadsCond := by
  unfold Obligations.OnlyBrReadsCond
  refine ⟨fun i s c hbr => ?_, State.reset, _, _, rfl, rfl, by decide⟩
  by_cases ht : i.isTrap = true
  · simp only [flagDest_of_isTrap ht, reduceIte]
    exact trap_withCond ht s c
  · cases i <;> simp only [Instr.isTrap, not_true_eq_false] at ht
    case br nzp off9 => exact absurd rfl (hbr nzp off9)
    case ld | ldr => exact .inl ⟨_, _, rfl, rfl, loadInto_withCond s c _ _⟩
    case ldi dr off9 =>
      refine .inl ⟨_, _, rfl, rfl, ?_⟩
      simp only [State.indirect, State.pcRelative]
      rw [memRead_withCond]
      exact loadInto_withCond _ c _ _
    case sti sr off9 =>
      refine .inl ⟨_, _, rfl, rfl, ?_⟩
      simp only [State.indirect, State.pcRelative]
      rw [memRead_withCond]
      rfl
    all_goals exact .inl ⟨_, _, rfl, rfl, rfl⟩

/-- Settles O46: a settled key, or the free draw. -/
theorem getcReadsAKey : Obligations.GetcReadsAKey := by
  unfold Obligations.GetcReadsAKey
  refine ⟨fun w hw => decodeWord_of_serviceRow hw rfl rfl, fun s n c rest h => ?_, fun s h => ?_⟩
  · exact ⟨_, getcService_of_key (consoleGetChar_of_key h), State.reg_setReg_self _ _ _, sameRegsBut_setReg _ _ _, rfl⟩
  · have hdraw := consoleGetChar_of_waits h
    cases hk : Config.keyDraw s.draws with
    | some c =>
      rw [hk] at hdraw
      exact ⟨_, getcService_of_key hdraw, State.reg_setReg_self _ _ _, sameRegsBut_setReg _ _ _, rfl⟩
    | none =>
      rw [hk] at hdraw
      exact getcService_of_none hdraw

/-- Settles O49: as GETC, after the prompt and with the echo. -/
theorem inPromptsAndEchoes : Obligations.InPromptsAndEchoes := by
  unfold Obligations.InPromptsAndEchoes
  refine ⟨fun w hw => decodeWord_of_serviceRow hw rfl rfl, fun s n c rest h => ?_, fun s h => ?_⟩
  · exact ⟨_, inService_of_key (consoleGetChar_of_key h), State.reg_setReg_self _ _ _, sameRegsBut_setReg _ _ _, rfl⟩
  · have hdraw := consoleGetChar_of_waits (s := s.consolePutChars Config.inPrompt) h
    rw [State.consolePutChars_draws] at hdraw
    cases hk : Config.keyDraw s.draws with
    | some c =>
      rw [hk] at hdraw
      exact ⟨_, inService_of_key hdraw, State.reg_setReg_self _ _ _, sameRegsBut_setReg _ _ _, rfl⟩
    | none =>
      rw [hk] at hdraw
      exact inService_of_none hdraw

/-- Settles O47: one character, the low byte of R0. -/
theorem outWritesLowByte : Obligations.OutWritesLowByte := by
  unfold Obligations.OutWritesLowByte
  exact ⟨fun w hw => decodeWord_of_serviceRow hw rfl rfl, fun _ => rfl⟩

/-- Settles O48: the walk's two ends, and one of them is met from every start. -/
theorem putsWritesString : Obligations.PutsWritesString := by
  unfold Obligations.PutsWritesString
  refine ⟨fun w hw => decodeWord_of_serviceRow hw rfl rfl, fun s ws hne hs => ?_, fun s => ?_⟩
  · obtain ⟨hzero, hpast⟩ := putsScan_eq s.mem ws (s.reg .r0) hne hs
    change (_ → _ → Host.Outcome.next (s.emitScan (putsScan s.mem (wordsLeft (s.reg .r0)) (s.reg .r0))) = _) ∧
      (_ → Host.Outcome.next (s.emitScan (putsScan s.mem (wordsLeft (s.reg .r0)) (s.reg .r0))) = _)
    refine ⟨fun hend hw => ?_, fun hend => ?_⟩
    · rw [hzero hend hw]; rfl
    · rw [hpast hend]; rfl
  · simpa using exists_stringIs s (fun w => w == 0x0000#16)

/-- Settles O50: the walk's three ends in the default build, and one of them is met from every start. -/
theorem putspWritesPackedString : Obligations.PutspWritesPackedString := by
  unfold Obligations.PutspWritesPackedString
  refine ⟨fun w hw => decodeWord_of_serviceRow hw rfl rfl, exec_putsp_string .logical, fun s => ?_⟩
  simpa using exists_stringIs s (fun w => w.extractLsb 15 8 == 0x00#8)

/-- Settles O51: the walk in the Byte build, the strings on which the builds agree, and that no instruction changes the build. -/
theorem putspByteReading : Obligations.PutspByteReading := by
  unfold Obligations.PutspByteReading
  refine ⟨exec_putsp_string .byte, fun s ws hhi hs hend => ?_, fun i s t h => exec_putspHighByte h, fun s t h => ?_⟩
  · have hscan := putspScan_byte_eq_logical s.mem (s.reg .r0) ws hhi hs hend
    refine ⟨_, exec_putsp (mode := .byte) rfl, (exec_putsp (mode := .logical) rfl).trans ?_⟩
    rw [emitScan_eq, emitScan_eq]
    simp only [State.withPutspHighByte_mem, State.withPutspHighByte_reg, hscan]
    rfl
  · by_cases hr : s.run = .running
    · rw [step_of_running hr] at h
      rw [exec_putspHighByte h, fetch_snd, State.setPc_putspHighByte, memRead_putspHighByte]
    · rw [step_of_not_running hr] at h
      cases h
      rfl

/-- Settles O52: the message, then Halted. -/
theorem haltHalts : Obligations.HaltHalts := by
  unfold Obligations.HaltHalts
  exact ⟨fun w hw => decodeWord_of_serviceRow hw rfl rfl, fun _ => rfl⟩

/-- Settles O53: the dispatcher and the decoder select by the same vectors. -/
theorem trapDispatchesOnVector : Obligations.TrapDispatchesOnVector := by
  unfold Obligations.TrapDispatchesOnVector
  refine ⟨fun w hw hvec => ?_, fun vec s => ⟨?_, ?_, ?_, ?_, ?_, ?_, fun hvec => ?_⟩⟩
  · rw [decodeWord_of_trap (opcode_of_row hw rfl rfl), decodeTrap_of_wellFormed (wellFormed_trap_of_not_service hvec)]
  · exact fun h => exec_trap_of_toNat (v := 0x20#8) h s
  · exact fun h => exec_trap_of_toNat (v := 0x21#8) h s
  · exact fun h => exec_trap_of_toNat (v := 0x22#8) h s
  · exact fun h => exec_trap_of_toNat (v := 0x23#8) h s
  · exact fun h => exec_trap_of_toNat (v := 0x24#8) h s
  · exact fun h => exec_trap_of_toNat (v := 0x25#8) h s
  · exact exec_trap_of_wellFormed vec s (wellFormed_trap_of_not_service hvec)

/-- Settles O54: a vector outside the services has none, at exec and after the fetch. -/
theorem unknownVectorIsNoOp : Obligations.UnknownVectorIsNoOp := by
  unfold Obligations.UnknownVectorIsNoOp
  have hnoop (vec : BitVec 8) (s : State) (h : vec.toNat < 0x20 ∨ 0x25 < vec.toNat) : exec (.trap vec) s = .next s :=
    exec_trap_of_wellFormed vec s (wellFormed_trap_of_not_service (by omega))
  refine ⟨hnoop, fun s w hr hpc hw hrow hvec => ?_⟩
  rw [step_of_pc_ne hr hpc, hw, decodeWord_of_trap (opcode_of_row hrow rfl rfl),
    decodeTrap_of_wellFormed (wellFormed_trap_of_not_service (by omega)), hnoop _ _ hvec]
  rfl

/-- Settles O55: what every trap leaves, and the memory it is blind to. -/
theorem trapLeavesLinkPcAndCond : Obligations.TrapLeavesLinkPcAndCond := by
  unfold Obligations.TrapLeavesLinkPcAndCond
  refine ⟨fun i s t ht h => ?_, fun i s m ht h1 h2 h3 h4 => ?_, fun i s m ht hbelow => ?_⟩
  · have hl := trap_leaves ht h
    exact ⟨hl.regs .r7 (by decide), hl.regs, hl.pc, hl.cond, hl.mem⟩
  · exact trap_withMem ht s m fun hwalk => by simp [h1, h2, h3, h4] at hwalk
  · exact trap_withMem ht s m fun _ => hbelow

/-- Settles O56: the row, the abort, and a poll's 0x8000 read as an instruction. -/
theorem rtiAborts : Obligations.RtiAborts := by
  unfold Obligations.RtiAborts
  refine ⟨fun w hw => decodeWord_of_rti (opcode_of_row hw rfl rfl), fun _ => rfl, fun s c rest hr hpc hk => ?_⟩
  have hpoll : s.nextPoll = some c := by rw [State.nextPoll, hk]
  have hpc' : s.pc = Config.kbsr := hpc
  have hrti : decodeWord s.fetch.1 = .rti := by
    rw [fetch_fst, hpc', (wordAfterRead_of_key hpoll).1]
    rfl
  refine ⟨s.fetch.2.raiseFatal (.fatalOpcode .rti), ?_, rfl, ?_⟩
  · rw [step_of_running hr, hrti]
    rfl
  · rw [State.raiseFatal_pc, fetch_snd, State.setPc_pc, hpc]
    rfl

/-- Settles O57: the row and the abort. -/
theorem resAborts : Obligations.ResAborts := by
  unfold Obligations.ResAborts
  exact ⟨fun w hw => decodeWord_of_res (opcode_of_row hw rfl rfl), fun _ => rfl⟩

/-! ## The Loader -/

/-- Settles O58: every word of the image that has an address is there, and no other word changed. -/
theorem loaderInstallsTheImage : Obligations.LoaderInstallsTheImage := by
  unfold Obligations.LoaderInstallsTheImage
  intro s origin ws odd hodd
  refine ⟨_, load_imageOf s origin ws hodd, fun k w hk hfit => rawRead_loadWords_of_getElem? s hk hfit, fun a ha => ?_,
    loadWords_frame s _ ws⟩
  rcases ha with hbelow | hpast
  · exact rawRead_loadWords_below s ws hbelow
  · rw [rawRead_loadWords, if_pos (by omega), List.getElem?_eq_none (by omega), Option.getD_none]

/-- Settles O60: an image without an origin word, and one with nothing after it. -/
theorem loaderDegenerateImages : Obligations.LoaderDegenerateImages := by
  unfold Obligations.LoaderDegenerateImages
  exact ⟨rfl, fun _ => rfl, fun _ _ => rfl, fun _ _ _ => rfl⟩

end Sys2Proof.Proofs
end
